-- ==== Sys2Proof/Word.lean ====
section
/-! DEFINITION. The words of the block: a register byte and a command word (00_scope.md R5, R6). -/

namespace Sys2Proof

/-- A register address or a register's contents: 8 bits (20_memory.md R51). -/
abbrev Byte := BitVec 8

/-- A command word `cw`: 24 bits (30_encoding.md R80). -/
abbrev CommandWord := BitVec 24

end Sys2Proof
end

