-- ==== Sys2Proof/Syntax.lean ====
section
/-! DEFINITION. The sixteen commands of spec/opcode_table.json, one constructor a row, with the operand fields the row
names. A semantic value is a natural number (00_scope.md R7); that it fits its port is `Instr.wellFormed`. -/

namespace Sys2Proof

/-- The eight fields, in the order of `FSEL` (30_encoding.md R80). -/
inductive Field
  | control
  | seconds
  | minutes
  | hours
  | day
  | weekday
  | month
  | year
deriving DecidableEq, Repr

/-- `ControlState`: the seven independent flags of CONTROL1, highest register bit first (42_bitfield_codec.md R170). -/
structure ControlState where
  capSel   : Bool
  stop     : Bool
  sr       : Bool
  mode1224 : Bool
  sie      : Bool
  aie      : Bool
  cie      : Bool
deriving DecidableEq, Repr

/-- The representation SET_HOURS encodes, the command word's `MODE` bit (30_encoding.md R80, D11). -/
inductive HourMode
  | mode24
  | mode12
deriving DecidableEq, Repr

/-- A command. SET_HOURS holds all four operand fields of its row; which of them it reads is part of its meaning
(42_bitfield_codec.md R178, R183). -/
inductive Instr
  | getControl
  | setControl (cs : ControlState)
  | getSeconds
  | setSeconds (v : Nat)
  | getMinutes
  | setMinutes (v : Nat)
  | getHours
  | setHours (mode : HourMode) (ampm : Bool) (h12 : Nat) (h24 : Nat)
  | getDay
  | setDay (v : Nat)
  | getWeekday
  | setWeekday (v : Nat)
  | getMonth
  | setMonth (v : Nat)
  | getYear
  | setYear (v : Nat)
deriving DecidableEq, Repr

end Sys2Proof
end

