-- ==== Sys2Proof/WellFormed.lean ====
section
/-! DEFINITION. Which command terms a command word can carry: every semantic value is 8 bits unsigned at the command
port (30_encoding.md R82, D2). A value out of its field's valid range is still well formed (R90). -/

namespace Sys2Proof

/-- A semantic value that fits the 8-bit operand `ARG0` or `ARG1` (30_encoding.md R82). -/
def fitsOperand (v : Nat) : Bool := decide (v < 256)

/-- Every numeric operand fits its 8 bits; the flags, `MODE` and `AMPM` are single bits and always do. -/
def Instr.wellFormed : Instr → Bool
  | .getControl => true
  | .setControl _ => true
  | .getSeconds => true
  | .setSeconds v => fitsOperand v
  | .getMinutes => true
  | .setMinutes v => fitsOperand v
  | .getHours => true
  | .setHours _ _ h12 h24 => fitsOperand h12 && fitsOperand h24
  | .getDay => true
  | .setDay v => fitsOperand v
  | .getWeekday => true
  | .setWeekday v => fitsOperand v
  | .getMonth => true
  | .setMonth v => fitsOperand v
  | .getYear => true
  | .setYear v => fitsOperand v

end Sys2Proof
end

