-- ==== Sys2Proof/Decode.lean ====
section
/-! DEFINITION. The command word's decoder, total on all 2^24 words (30_encoding.md R80 to R82, R89), and the encoder
that assembles ignored bits as 0 (R93). There is no illegal command word, so no word is rejected. -/

namespace Sys2Proof

/-! ### The fields of the command word (R80) -/

/-- `FSEL`, `cw[23:21]`. -/
def wordField (cw : CommandWord) : Field :=
  match cw.getLsbD 23, cw.getLsbD 22, cw.getLsbD 21 with
  | false, false, false => .control
  | false, false, true => .seconds
  | false, true, false => .minutes
  | false, true, true => .hours
  | true, false, false => .day
  | true, false, true => .weekday
  | true, true, false => .month
  | true, true, true => .year

/-- `WR`, `cw[20]`: true for a set. -/
def wordIsSet (cw : CommandWord) : Bool := cw.getLsbD 20

/-- `MODE`, `cw[17]`: 0 is 24-hour, 1 is 12-hour. -/
def wordMode (cw : CommandWord) : HourMode := if cw.getLsbD 17 then .mode12 else .mode24

/-- `AMPM`, `cw[16]`. -/
def wordAmPm (cw : CommandWord) : Bool := cw.getLsbD 16

/-- `ARG1`, `cw[15:8]`, unsigned. -/
def wordArg1 (cw : CommandWord) : Nat := (cw.extractLsb' 8 8).toNat

/-- `ARG0`, `cw[7:0]`, unsigned. -/
def wordArg0 (cw : CommandWord) : Nat := (cw.extractLsb' 0 8).toNat

/-- The field `x` of a word of `n` bits with its lowest bit at bit `k` and zeros elsewhere (00_scope.md R6). -/
def putField (n k : Nat) {m : Nat} (x : BitVec m) : BitVec n := x.setWidth n <<< k

/-- The single bit `b` at bit `k` of a word of `n` bits. -/
def putBit (n k : Nat) (b : Bool) : BitVec n := putField n k (BitVec.ofBool b)

/-- The seven flags of the 7-bit vector `{cap_sel, stop, sr, mode_12_24, sie, aie, cie}` (R82). -/
def flagsOfBits (cs : BitVec 7) : ControlState :=
  { capSel := cs.getLsbD 6, stop := cs.getLsbD 5, sr := cs.getLsbD 4, mode1224 := cs.getLsbD 3,
    sie := cs.getLsbD 2, aie := cs.getLsbD 1, cie := cs.getLsbD 0 }

/-- The 7-bit vector `cs[6:0]` of seven flags (R82). -/
def flagsToBits (c : ControlState) : BitVec 7 :=
  putBit 7 6 c.capSel ||| putBit 7 5 c.stop ||| putBit 7 4 c.sr ||| putBit 7 3 c.mode1224 ||| putBit 7 2 c.sie |||
    putBit 7 1 c.aie ||| putBit 7 0 c.cie

/-- The control operand of SET_CONTROL, `ARG0[6:0]`; `ARG0[7]` is ignored (R82, R89). -/
def wordFlags (cw : CommandWord) : ControlState := flagsOfBits (cw.extractLsb' 0 7)

/-! ### The decoder -/

/-- The command a word stands for (R81); defined for every word. -/
def decode (cw : CommandWord) : Instr :=
  match wordField cw, wordIsSet cw with
  | .control, false => .getControl
  | .control, true => .setControl (wordFlags cw)
  | .seconds, false => .getSeconds
  | .seconds, true => .setSeconds (wordArg0 cw)
  | .minutes, false => .getMinutes
  | .minutes, true => .setMinutes (wordArg0 cw)
  | .hours, false => .getHours
  | .hours, true => .setHours (wordMode cw) (wordAmPm cw) (wordArg1 cw) (wordArg0 cw)
  | .day, false => .getDay
  | .day, true => .setDay (wordArg0 cw)
  | .weekday, false => .getWeekday
  | .weekday, true => .setWeekday (wordArg0 cw)
  | .month, false => .getMonth
  | .month, true => .setMonth (wordArg0 cw)
  | .year, false => .getYear
  | .year, true => .setYear (wordArg0 cw)

/-- The instruction read from an opcode-table word of `nbits` bits: the word is presented whole at the 24-bit command
port (bits above `nbits` are 0); a word that does not fit the port is no command (log entry 13). -/
def decodeTableWord (nbits w : Nat) : Option Instr :=
  if w % 2 ^ nbits < 2 ^ 24 then some (decode (BitVec.ofNat 24 (w % 2 ^ nbits))) else none

/-! ### The encoder -/

/-- The 3-bit `FSEL` of a field (R80). -/
def fieldSel : Field → BitVec 3
  | .control => 0
  | .seconds => 1
  | .minutes => 2
  | .hours => 3
  | .day => 4
  | .weekday => 5
  | .month => 6
  | .year => 7

/-- A command word from its fields, bits 19:18 zero (R80). -/
def assembleWord (f : Field) (wr mode ampm : Bool) (arg1 arg0 : Byte) : CommandWord :=
  putField 24 21 (fieldSel f) ||| putBit 24 20 wr ||| putBit 24 17 mode ||| putBit 24 16 ampm ||| putField 24 8 arg1 |||
    putField 24 0 arg0

/-- The word of a get: no operand (R81). -/
def getWord (f : Field) : CommandWord := assembleWord f false false false 0 0

/-- The word of a set whose one operand is `ARG0` (R81). -/
def setWord (f : Field) (arg0 : Byte) : CommandWord := assembleWord f true false false 0 arg0

/-- The command word of a command, ignored bits 0 (R81, R93). -/
def encode : Instr → CommandWord
  | .getControl => getWord .control
  | .setControl cs => setWord .control ((flagsToBits cs).setWidth 8)
  | .getSeconds => getWord .seconds
  | .setSeconds v => setWord .seconds (BitVec.ofNat 8 v)
  | .getMinutes => getWord .minutes
  | .setMinutes v => setWord .minutes (BitVec.ofNat 8 v)
  | .getHours => getWord .hours
  | .setHours mode ampm h12 h24 =>
      assembleWord .hours true (decide (mode = .mode12)) ampm (BitVec.ofNat 8 h12) (BitVec.ofNat 8 h24)
  | .getDay => getWord .day
  | .setDay v => setWord .day (BitVec.ofNat 8 v)
  | .getWeekday => getWord .weekday
  | .setWeekday v => setWord .weekday (BitVec.ofNat 8 v)
  | .getMonth => getWord .month
  | .setMonth v => setWord .month (BitVec.ofNat 8 v)
  | .getYear => getWord .year
  | .setYear v => setWord .year (BitVec.ofNat 8 v)

end Sys2Proof
end

