-- ==== Sys2Proof/Ports.lean ====
section
/-! DEFINITION. The records that cross the block's ports: transaction request, completion, response, and one sample of
the input ports (30_encoding.md R83 to R87; 10_state.md R29 to R33). -/

namespace Sys2Proof.Machine

/-- The two transaction shapes (30_encoding.md R85, R86). -/
inductive TxKind
  | writeOnly
  | writeThenRead
deriving DecidableEq, Repr, Inhabited

/-- `TXQ`, the transaction request record (30_encoding.md R86). -/
structure Txq where
  kind : TxKind
  dev  : BitVec 7
  b0   : Byte
  b1   : Byte
deriving DecidableEq, Repr, Inhabited

/-- The four completion statuses (30_encoding.md R87). -/
inductive TxStatus
  | ok
  | fail
  | invalidArg
  | other
deriving DecidableEq, Repr, Inhabited

/-- `TXC`, the completion record (30_encoding.md R87). -/
structure Completion where
  status : TxStatus
  rx     : Byte
deriving DecidableEq, Repr

/-- The three result codes (60_exceptions.md R200). -/
inductive Result
  | success
  | commFailure
  | invalidParam
deriving DecidableEq, Repr, Inhabited

/-- One decoded value, in the shape its command gives it (30_encoding.md R84). -/
inductive Payload
  | flags (cs : ControlState)
  | value (v : Byte)
  | hours (ampm : Bool) (h12 h24 : Byte)
deriving DecidableEq, Repr

/-- `RSP`, the response record; an absent payload is `none` and holds no value (30_encoding.md R83). -/
structure Response where
  result  : Result
  payload : Option Payload
deriving DecidableEq, Repr, Inhabited

/-- One sample of everything the outside does to the machine in a step: the block's input ports (10_state.md R29, R30,
R32, R33; 70_reset_and_hazards.md R230) and the peripheral's own register changes (20_memory.md R68). -/
structure Inputs where
  rst      : Bool
  cmdValid : Bool
  cmd      : CommandWord
  rspReady : Bool
  txcValid : Bool
  txc      : BitVec 10
  tick     : Bool
  own      : List (Byte × Byte)
deriving DecidableEq, Repr, Inhabited

end Sys2Proof.Machine
end

