-- ==== Sys2Proof/Config.lean ====
section
/-! DEFINITION. What is fixed for the block (00_scope.md R5) and the free values the spec leaves open: constants with no
body, so that nothing can be proved from a particular value of them. -/

namespace Sys2Proof.Config

/-- `DEV_ADDR`, the 7-bit device address of every transaction (00_scope.md R5). -/
def devAddr : BitVec 7 := 0x68#7

/-- `TIMEOUT`, in time units (00_scope.md R5). -/
def timeout : Nat := 100

/-- `TICK_UNIT`, the length of one time unit, left open (00_scope.md R5, D9, U13). Log entry 9. -/
opaque tickUnit : Nat

/-- Free: what the outside does in a step past the samples already queued (20_memory.md R61, U3, U12). Log entry 4. -/
opaque freeInputs : Nat → Sys2Proof.Machine.Inputs

/-- Free: the byte that the register at an address holds before anything the block knows of is stored there, by the number
of the contents (10_state.md R44, U1, U9). Log entry 5. -/
opaque freeByte : Nat → Nat → Sys2Proof.Byte

/-- Free: `CMD` after an `rst` step (10_state.md R44, U10). Log entry 2. -/
opaque freeCmd : Nat → Sys2Proof.CommandWord

/-- Free: `TXQ` after an `rst` step (10_state.md R44, U10). Log entry 2. -/
opaque freeTxq : Nat → Sys2Proof.Machine.Txq

/-- Free: `RSP` after an `rst` step (10_state.md R44, U10). Log entry 2. -/
opaque freeRsp : Nat → Sys2Proof.Machine.Response

end Sys2Proof.Config
end

