-- ==== Sys2Proof/Machine/State.lean ====
section
/-! DEFINITION. The machine's state as plain data: the block's five latches (10_state.md R20), its output pulses, the
input ports, and the peripheral's register file; why a step can stop; and the state after reset (10_state.md R44). -/

namespace Sys2Proof.Machine

/-- `ph`, the phase (10_state.md R21). -/
inductive Phase
  | idle
  | wait
  | resp
deriving DecidableEq, Repr

/-- Bytes by address, addresses strictly rising. -/
abbrev Memory := List Host.Cell

/-- The peripheral's register file: a byte in every register (10_state.md R34 to R41). `known` lists the bytes stored so
far, and every other register holds the free byte of the contents numbered `base` (R44, U1, U9; log entry 5). -/
structure RegFile where
  known : Memory
  base  : Nat
deriving DecidableEq, Repr

/-- The machine's state. `ph`, `cmd`, `txq`, `tmr`, `rsp` are the block's five latches (10_state.md R20). -/
structure State where
  /-- `ph` (R21). -/
  ph       : Phase
  /-- `CMD`, the command word accepted (R22). -/
  cmd      : CommandWord
  /-- `TXQ`, the transaction issued (R23). -/
  txq      : Txq
  /-- `tmr`, ticks since the transaction was issued (R24). -/
  tmr      : BitVec 7
  /-- `RSP`, the response (R25). -/
  rsp      : Response
  /-- `txq_valid`: the pulse of the step just taken (R31). -/
  txqValid : Bool
  /-- `tx_abort`: the pulse of the step just taken (R31). -/
  txAbort  : Bool
  /-- The input ports at the step about to be taken (R29 to R33). -/
  inp      : Inputs
  /-- The input samples queued for the steps after that one, oldest first. -/
  upcoming : List Inputs
  /-- How many steps have drawn free values. -/
  draw     : Nat
  /-- The peripheral's registers (10_state.md R34 to R41). -/
  per      : RegFile
deriving DecidableEq, Repr

/-- Why the machine stops. None of these is reached by a command from reset. -/
inductive Fault
  /-- A tick in WAIT with `tmr` at 100 or more, which 10_state.md R24 rules out: no step of the spec applies. Raised by
  `countTick`. Safe: only states that no run reaches. -/
  | timerOverrun
  /-- A host reads the payload of a response that has none (U11). Raised by `hostReadsPayload`, never by a step. Safe. -/
  | absentPayload
deriving DecidableEq, Repr

/-- Why the model has no answer. -/
inductive Refusal
  /-- The command has no meaning yet. Raised by no arm: every command has one. Safe. -/
  | notModelled (mnemonic : String)
deriving DecidableEq, Repr

/-- A sample in which the outside does nothing. -/
def quietInputs : Inputs :=
  { rst := false, cmdValid := false, cmd := 0, rspReady := false, txcValid := false, txc := 0, tick := false, own := [] }

/-- The machine right after reset (10_state.md R44): `ph` IDLE, `tmr` 0, no pulse. `cmd`, `txq` and `rsp` are unspecified
there; the values are the model's (DESIGN CHOICE, log entry 1), as is the quiet first sample (log entry 4). Every
register of the peripheral holds a free byte (U9; log entry 5). -/
def State.reset : State :=
  { ph := .idle
    cmd := 0
    txq := { kind := .writeOnly, dev := Config.devAddr, b0 := 0, b1 := 0 }
    tmr := 0
    rsp := { result := .success, payload := none }
    txqValid := false
    txAbort := false
    inp := quietInputs
    upcoming := []
    draw := 0
    per := { known := [], base := 0 } }

end Sys2Proof.Machine
end

