-- ==== Sys2Proof/Machine/Codec.lean ====
section
/-! DEFINITION. The codecs, pure functions between register bytes and semantic values: BCD (41_bcd_codec.md R140 to R142),
control flags, hours and weekday (42_bitfield_codec.md R171 to R177). -/

namespace Sys2Proof.Machine

/-! ### BCD -/

/-- `tensMask(w)` (41_bcd_codec.md R140). -/
def tensMask (w : Nat) : Nat := ((1 <<< w) - 1) <<< 4

/-- `BcdDecode(b, w)`, on any byte (41_bcd_codec.md R141). -/
def bcdDecode (b : Byte) (w : Nat) : Nat := ((b.toNat &&& tensMask w) >>> 4) * 10 + (b.toNat &&& 0x0F)

/-- `BcdEncode(v, w)`, on any value (41_bcd_codec.md R142). -/
def bcdEncode (v w : Nat) : Nat := (((v / 10) <<< 4) &&& tensMask w) ||| (v % 10)

/-- The decoded value as `VAL0` or `VAL1` carries it; at most 165, so nothing is cut (41_bcd_codec.md R143). -/
def bcdValue (b : Byte) (w : Nat) : Byte := BitVec.ofNat 8 (bcdDecode b w)

/-- The encoded byte (41_bcd_codec.md R142, R143). -/
def bcdByte (v w : Nat) : Byte := BitVec.ofNat 8 (bcdEncode v w)

/-! The tens-digit widths of the fields (41_bcd_codec.md R140). -/

def secondsWidth : Nat := 3
def minutesWidth : Nat := 3
def hours24Width : Nat := 2
def hours12Width : Nat := 1
def dayWidth : Nat := 2
def monthWidth : Nat := 1
def yearWidth : Nat := 4

/-! ### Control flags -/

/-- `CtlDecode(b)`; bit 6 is not read (42_bitfield_codec.md R171). -/
def ctlDecode (b : Byte) : ControlState :=
  { capSel := b.getLsbD 7, stop := b.getLsbD 5, sr := b.getLsbD 4, mode1224 := b.getLsbD 3,
    sie := b.getLsbD 2, aie := b.getLsbD 1, cie := b.getLsbD 0 }

/-- `CtlEncode(cs)`; bit 6 is written as 0 (42_bitfield_codec.md R172). -/
def ctlEncode (c : ControlState) : Byte :=
  putBit 8 7 c.capSel ||| putBit 8 5 c.stop ||| putBit 8 4 c.sr ||| putBit 8 3 c.mode1224 ||| putBit 8 2 c.sie |||
    putBit 8 1 c.aie ||| putBit 8 0 c.cie

/-! ### Hours -/

/-- `HoursDecode(b)`: both readings and the AM/PM bit at once (42_bitfield_codec.md R174). -/
def hoursDecode (b : Byte) : Payload :=
  .hours (b.getLsbD 5) (bcdValue b hours12Width) (bcdValue b hours24Width)

/-- `HoursEncode(mode, ampm, h12, h24)`: only the selected representation (42_bitfield_codec.md R175). -/
def hoursEncode (mode : HourMode) (ampm : Bool) (h12 h24 : Nat) : Byte :=
  match mode with
  | .mode24 => bcdByte h24 hours24Width
  | .mode12 => BitVec.ofNat 8 ((ampm.toNat <<< 5) ||| bcdEncode h12 hours12Width)

/-! ### Weekday -/

/-- `WdDecode(b)` (42_bitfield_codec.md R176). -/
def wdDecode (b : Byte) : Byte := b &&& 0x07

/-- `WdEncode(v)` (42_bitfield_codec.md R177). -/
def wdEncode (v : Nat) : Byte := BitVec.ofNat 8 (v &&& 0x07)

end Sys2Proof.Machine
end

