-- ==== Sys2Proof/Machine/Operands.lean ====
section
/-! DEFINITION. What a command's fields and operands select: the register multiplexer (20_memory.md R52) and the
validator's closed ranges (41_bcd_codec.md R144; 42_bitfield_codec.md R173, R178, R179). -/

namespace Sys2Proof.Machine

/-- `RegAddr`, the register multiplexer: the only place a register address appears (20_memory.md R52). -/
def regAddr : Field → Byte
  | .control => 0x00
  | .seconds => 0x03
  | .minutes => 0x04
  | .hours => 0x05
  | .day => 0x06
  | .weekday => 0x07
  | .month => 0x08
  | .year => 0x09

/-- A closed range test, `lo ≤ v ≤ hi`. -/
def inRange (lo hi v : Nat) : Bool := decide (lo ≤ v) && decide (v ≤ hi)

/-- `Valid` of SET_SECONDS (41_bcd_codec.md R144). -/
def validSeconds (v : Nat) : Bool := inRange 0 59 v

/-- `Valid` of SET_MINUTES (41_bcd_codec.md R144). -/
def validMinutes (v : Nat) : Bool := inRange 0 59 v

/-- `Valid` of SET_DAY (41_bcd_codec.md R144). -/
def validDay (v : Nat) : Bool := inRange 1 31 v

/-- `Valid` of SET_MONTH (41_bcd_codec.md R144). -/
def validMonth (v : Nat) : Bool := inRange 1 12 v

/-- `Valid` of SET_YEAR: from 1, not 0 (41_bcd_codec.md R144; 90_conflicts.md C1). -/
def validYear (v : Nat) : Bool := inRange 1 99 v

/-- `Valid` of SET_WEEKDAY (42_bitfield_codec.md R179). -/
def validWeekday (v : Nat) : Bool := inRange 0 6 v

/-- `Valid` of SET_HOURS: only the representation that `MODE` selects is tested (42_bitfield_codec.md R178). -/
def validHours (mode : HourMode) (h12 h24 : Nat) : Bool :=
  match mode with
  | .mode24 => inRange 0 23 h24
  | .mode12 => inRange 1 12 h12

end Sys2Proof.Machine
end

