-- ==== Sys2Proof/Machine/Flags.lean ====
section
/-! DEFINITION. The block has no condition code and no sticky flag (10_state.md R27); the one status it computes is the
result code of a completion (40_transaction_fsm.md R117). -/

namespace Sys2Proof.Machine

/-- The result a completion status gives (40_transaction_fsm.md R113, R117). -/
def classify : TxStatus → Result
  | .ok => .success
  | .invalidArg => .invalidParam
  | .fail => .commFailure
  | .other => .commFailure

/-- The numeric result code (60_exceptions.md R200). -/
def resultCode : Result → BitVec 2
  | .success => 0
  | .commFailure => 1
  | .invalidParam => 2

end Sys2Proof.Machine
end

