-- ==== Sys2Proof/Machine/Records.lean ====
section
/-! DEFINITION. The bit layouts of the records at the ports: transaction request (30_encoding.md R86), completion (R87),
response (R83, R84), and the phase (10_state.md R21). -/

namespace Sys2Proof.Machine

/-- `ph` as two bits; the value 3 is unreachable (10_state.md R21). -/
def phaseCode : Phase → BitVec 2
  | .idle => 0
  | .wait => 1
  | .resp => 2

/-- `kind`: 1 = WRITE_THEN_READ, 0 = WRITE_ONLY (30_encoding.md R86). -/
def kindCode : TxKind → BitVec 1
  | .writeOnly => 0
  | .writeThenRead => 1

/-- `txq`, the packed request, 24 bits (30_encoding.md R86). -/
def packTxq (t : Txq) : BitVec 24 :=
  putField 24 23 (kindCode t.kind) ||| putField 24 16 t.dev ||| putField 24 8 t.b0 ||| putField 24 0 t.b1

/-- The bytes a request writes to the peripheral (30_encoding.md R86; 20_memory.md R55). -/
def bytesWritten (t : Txq) : List Byte :=
  match t.kind with
  | .writeOnly => [t.b0, t.b1]
  | .writeThenRead => [t.b0]

/-- How many bytes a request reads back (30_encoding.md R86). -/
def bytesRead (t : Txq) : Nat :=
  match t.kind with
  | .writeOnly => 0
  | .writeThenRead => 1

/-- A completion's status from its two bits (30_encoding.md R87). -/
def statusOfBits (hi lo : Bool) : TxStatus :=
  match hi, lo with
  | false, false => .ok
  | false, true => .fail
  | true, false => .invalidArg
  | true, true => .other

/-- The two bits of a completion's status (30_encoding.md R87). -/
def statusCode : TxStatus → BitVec 2
  | .ok => 0
  | .fail => 1
  | .invalidArg => 2
  | .other => 3

/-- `TXC` from the 10 bits of the completion port (30_encoding.md R87). -/
def unpackCompletion (txc : BitVec 10) : Completion :=
  { status := statusOfBits (txc.getLsbD 9) (txc.getLsbD 8), rx := txc.extractLsb' 0 8 }

/-- The 10 bits of a completion (30_encoding.md R87). -/
def packCompletion (c : Completion) : BitVec 10 := putField 10 8 (statusCode c.status) ||| putField 10 0 c.rx

/-- `R_AMPM`, `VAL1`, `VAL0` of a payload; an absent payload drives zeros that are no value (30_encoding.md R83, R84). -/
def packPayload : Option Payload → BitVec 17
  | none => 0
  | some (.flags cs) => (flagsToBits cs).setWidth 17
  | some (.value v) => v.setWidth 17
  | some (.hours ampm h12 h24) => putBit 17 16 ampm ||| putField 17 8 h12 ||| putField 17 0 h24

/-- `rsp`, the packed response, 19 bits (30_encoding.md R83). -/
def packResponse (r : Response) : BitVec 19 :=
  putField 19 17 (resultCode r.result) ||| putField 19 0 (packPayload r.payload)

end Sys2Proof.Machine
end

