-- ==== Sys2Proof/Machine/Ops.lean ====
section
/-! DEFINITION. The shared operations: the peripheral's register file, the steps of the single-transaction state machine
(40_transaction_fsm.md R111 to R119), raising an error and returning from one (60_exceptions.md R207, R208), reset, and
what a step does around a command. -/

namespace Sys2Proof.Machine

/-! ### The peripheral's register file -/

/-- What a register that is not listed reads as: a free byte, of the contents numbered `base` (10_state.md R44, U1, U9; log
entry 5). -/
def unlistedByte (base a : Nat) : Byte := Config.freeByte base a

/-- The byte listed at address `a`, if one is. -/
def listedByte : Memory → Nat → Option Byte
  | [], _ => none
  | c :: m, a => if c.1 = a then some c.2 else listedByte m a

/-- The list with the byte `v` at address `a`; the addresses stay strictly rising. -/
def listByte : Memory → Nat → Byte → Memory
  | [], a, v => [(a, v)]
  | c :: m, a, v =>
    if a < c.1 then (a, v) :: c :: m
    else if c.1 = a then (a, v) :: m
    else c :: listByte m a v

/-- The byte in the register at address `a`. -/
def memRead (f : RegFile) (a : Nat) : Byte := (listedByte f.known a).getD (unlistedByte f.base a)

/-- The register file after the byte `v` is stored at address `a`. -/
def memWrite (f : RegFile) (a : Nat) (v : Byte) : RegFile := { f with known := listByte f.known a v }

/-- The register file after a failed transaction in the step with draw `n`: in every register a free byte of new contents
(20_memory.md R59, U1; log entry 6). -/
def memForget (n : Nat) : RegFile := { known := [], base := n + 1 }

/-- The canonical form: addresses strictly rising, each in the 8-bit register space (20_memory.md R51). -/
abbrev Memory.wf (m : Memory) : Prop := m.Pairwise (fun c d => c.1 < d.1) ∧ ∀ c ∈ m, c.1 < 256

/-- The peripheral changes registers of its own, in the order listed (20_memory.md R68). -/
def ownChanges : List (Byte × Byte) → RegFile → RegFile
  | [], f => f
  | (a, v) :: rest, f => ownChanges rest (memWrite f a.toNat v)

/-- What a completed transaction leaves in the register file (20_memory.md R59, U1, U2; 40_transaction_fsm.md R123 (c),
(d); log entries 6 and 14): T_OK stores a write's data byte, T_INVALID_ARG touches nothing, a failure leaves free bytes,
new in the step with draw `n`. DESIGN CHOICE (log entry 17): a successful access has no further effect on any register.
R61 leaves side effects open; they can enter only as the peripheral's own changes. -/
def peripheralAfter (t : Txq) (st : TxStatus) (n : Nat) (f : RegFile) : RegFile :=
  match st with
  | .ok =>
    match t.kind with
    | .writeOnly => memWrite f t.b0.toNat t.b1
    | .writeThenRead => f
  | .invalidArg => f
  | .fail => memForget n
  | .other => memForget n

/-! ### The transaction primitives -/

/-- `MemRead(addr, 1)`: the record of a register read (20_memory.md R56). -/
def readTxq (addr : Byte) : Txq := { kind := .writeThenRead, dev := Config.devAddr, b0 := addr, b1 := 0 }

/-- `MemWrite(addr, 1, v)`: the record of a register write (20_memory.md R57). -/
def writeTxq (addr v : Byte) : Txq := { kind := .writeOnly, dev := Config.devAddr, b0 := addr, b1 := v }

/-! ### Responding, raising an error, returning -/

/-- The pulses of the step before are over (10_state.md R31). -/
def clearPulses (s : State) : State := { s with txqValid := false, txAbort := false }

/-- `respond(result, payload)` (40_transaction_fsm.md R118). -/
def respond (r : Result) (p : Option Payload) (s : State) : State :=
  { s with rsp := { result := r, payload := p }, ph := .resp }

/-- `raise E`: the command ends with the result `E` and an absent payload; nothing is saved and nothing else changes
(60_exceptions.md R200, R207). -/
def raise (e : Result) (s : State) : State := respond e none s

/-- The deliver step, the return from an error as from a success: the host takes the response and the block is IDLE
with every latch as it was (40_transaction_fsm.md R119; 60_exceptions.md R208). -/
def deliver (s : State) : State :=
  if s.inp.rspReady then { clearPulses s with ph := .idle } else clearPulses s

/-! ### The steps of a command -/

/-- `CMD <- cmd` (40_transaction_fsm.md R111). -/
def latchCommand (s : State) : State := { clearPulses s with cmd := s.inp.cmd }

/-- The transaction is issued: `TXQ`, the `txq_valid` pulse, `tmr <- 0`, `ph <- WAIT` (40_transaction_fsm.md R111). -/
def issue (t : Txq) (s : State) : State := { s with txq := t, txqValid := true, tmr := 0, ph := .wait }

/-- The accept step of a command whose validity is `valid` and whose transaction is `t` (40_transaction_fsm.md R111). -/
def accept (valid : Bool) (t : Txq) (s : State) : State :=
  if valid then issue t (latchCommand s) else raise .invalidParam (latchCommand s)

/-- The completion step; `payload` is what the command answers to the byte read (40_transaction_fsm.md R113). -/
def complete (payload : Byte → Option Payload) (s : State) : State :=
  match (unpackCompletion s.inp.txc).status with
  | .ok =>
    respond (classify .ok) (payload (unpackCompletion s.inp.txc).rx)
      { clearPulses s with per := peripheralAfter s.txq .ok s.draw s.per }
  | .invalidArg => raise (classify .invalidArg) { clearPulses s with per := peripheralAfter s.txq .invalidArg s.draw s.per }
  | .fail => raise (classify .fail) { clearPulses s with per := peripheralAfter s.txq .fail s.draw s.per }
  | .other => raise (classify .other) { clearPulses s with per := peripheralAfter s.txq .other s.draw s.per }

/-- The timeout step: `tmr <- TIMEOUT`, the `tx_abort` pulse, CommFailure; the peripheral is as after any failure
(40_transaction_fsm.md R116; log entry 6). -/
def timeOut (s : State) : State :=
  raise .commFailure { clearPulses s with tmr := BitVec.ofNat 7 Config.timeout, txAbort := true, per := memForget s.draw }

/-- A tick in WAIT with no completion: the tick step, or the timeout step at the hundredth (40_transaction_fsm.md R115,
R116). At 100 or more, where the spec has no step, the machine stops (log entry 8). -/
def countTick (s : State) : Host.Outcome State Fault Refusal :=
  if s.tmr.toNat < Config.timeout - 1 then .next { clearPulses s with tmr := s.tmr + 1 }
  else if s.tmr.toNat = Config.timeout - 1 then .next (timeOut s)
  else .fault .timerOverrun

/-- A step in WAIT: a completion wins over a tick; with neither, nothing changes (40_transaction_fsm.md R113, R115 to
R117, R124). -/
def awaitCompletion (payload : Byte → Option Payload) (s : State) : Host.Outcome State Fault Refusal :=
  if s.inp.txcValid then .next (complete payload s)
  else if s.inp.tick then countTick s
  else .next (clearPulses s)

/-- One step of a command in the phase the block is in: accepted from IDLE, awaited in WAIT, delivered in RESP
(40_transaction_fsm.md R110, R111 to R119; log entry 11). -/
def runCommand (valid : Bool) (t : Txq) (payload : Byte → Option Payload) (s : State) :
    Host.Outcome State Fault Refusal :=
  match s.ph with
  | .idle => .next (accept valid t s)
  | .wait => awaitCompletion payload s
  | .resp => .next (deliver s)

/-- A get of field `f`: never validated, one read, the byte decoded by `dec` (40_transaction_fsm.md R111, R112, R114). -/
def runGet (f : Field) (dec : Byte → Payload) (s : State) : Host.Outcome State Fault Refusal :=
  runCommand true (readTxq (regAddr f)) (fun b => some (dec b)) s

/-- A set of field `f`: `valid` is its range test, `data` its encoded byte; a success carries no payload
(40_transaction_fsm.md R111 to R113). -/
def runSet (f : Field) (valid : Bool) (data : Byte) (s : State) : Host.Outcome State Fault Refusal :=
  runCommand valid (writeTxq (regAddr f) data) (fun _ => none) s

/-! ### Around a command -/

/-- The command in flight: the one at the command port while IDLE, the one latched in `CMD` otherwise (10_state.md R22,
R29; 20_memory.md R66). -/
def current (s : State) : Instr :=
  match s.ph with
  | .idle => decode s.inp.cmd
  | .wait => decode s.cmd
  | .resp => decode s.cmd

/-- IDLE with no command presented: there is nothing to run. -/
def noCommand (s : State) : Bool := decide (s.ph = .idle) && !s.inp.cmdValid

/-- The reset step (70_reset_and_hazards.md R230, R231): IDLE, `tmr` 0, the data latches free (log entry 2). In WAIT it
pulses `tx_abort` and the peripheral is as after a failed transaction. -/
def resetBlock (s : State) : State :=
  { s with
    ph := .idle
    tmr := 0
    cmd := Config.freeCmd s.draw
    txq := Config.freeTxq s.draw
    rsp := Config.freeRsp s.draw
    txqValid := false
    txAbort := decide (s.ph = .wait)
    per := if s.ph = .wait then memForget s.draw else s.per }

/-- The inputs of the step are used up: the peripheral's own changes of the step land and the next sample stands at the
ports, a free one where none is queued (log entries 4 and 7). DESIGN CHOICE (log entry 16): the own changes land last, after
whatever the step's transaction did to the register file, also after a failure, a timeout or a reset that left free bytes in it. -/
def advance (s : State) : State :=
  { s with
    per := ownChanges s.inp.own s.per
    inp := s.upcoming.headD (Config.freeInputs s.draw)
    upcoming := s.upcoming.tail
    draw := s.draw + 1 }

/-- `advance` on a next state. -/
def advanceNext : Host.Outcome State Fault Refusal → Host.Outcome State Fault Refusal
  | .next s => .next (advance s)
  | .fault e => .fault e
  | .refused r => .refused r

/-- The block is IDLE and the host presents the command word `cw` alone, in the very next step; the samples queued before
come after it. -/
def presentCommand (cw : CommandWord) (s : State) : State :=
  { s with
    ph := .idle
    inp := { quietInputs with cmdValid := true, cmd := cw }
    upcoming := s.inp :: s.upcoming }

/-! ### The output ports -/

/-- `cmd_ready` (10_state.md R29). -/
def cmdReady (s : State) : Bool := decide (s.ph = .idle)

/-- `rsp_valid` (10_state.md R30). -/
def rspValid (s : State) : Bool := decide (s.ph = .resp)

/-- `rsp`, 19 bits (10_state.md R30). -/
def rspPort (s : State) : BitVec 19 := packResponse s.rsp

/-- `txq`, 24 bits (10_state.md R31). -/
def txqPort (s : State) : BitVec 24 := packTxq s.txq

/-- The completion at the port (10_state.md R32). -/
def completion (s : State) : Completion := unpackCompletion s.inp.txc

/-- A host reads the payload of the response; an absent one is no value (30_encoding.md R83, U11). -/
def hostReadsPayload (s : State) : Host.Outcome Payload Fault Refusal :=
  match s.rsp.payload with
  | some p => .next p
  | none => .fault .absentPayload

/-- The time since the transaction was issued, in whatever unit `TICK_UNIT` is measured in (00_scope.md R5). -/
def timeSinceIssue (s : State) : Nat := s.tmr.toNat * Config.tickUnit

end Sys2Proof.Machine
end

