-- ==== Sys2Proof/Machine/BcdCommands.lean ====
section
/-! DEFINITION. The ten commands of the five scalar BCD fields (41_bcd_codec.md R150 to R159). -/

namespace Sys2Proof.Machine

/-- GET_SECONDS (41_bcd_codec.md R150). -/
def execGetSeconds (s : State) : Host.Outcome State Fault Refusal :=
  runGet .seconds (fun b => .value (bcdValue b secondsWidth)) s

/-- SET_SECONDS (41_bcd_codec.md R151). -/
def execSetSeconds (v : Nat) (s : State) : Host.Outcome State Fault Refusal :=
  runSet .seconds (validSeconds v) (bcdByte v secondsWidth) s

/-- GET_MINUTES (41_bcd_codec.md R152). -/
def execGetMinutes (s : State) : Host.Outcome State Fault Refusal :=
  runGet .minutes (fun b => .value (bcdValue b minutesWidth)) s

/-- SET_MINUTES (41_bcd_codec.md R153). -/
def execSetMinutes (v : Nat) (s : State) : Host.Outcome State Fault Refusal :=
  runSet .minutes (validMinutes v) (bcdByte v minutesWidth) s

/-- GET_DAY (41_bcd_codec.md R154). -/
def execGetDay (s : State) : Host.Outcome State Fault Refusal :=
  runGet .day (fun b => .value (bcdValue b dayWidth)) s

/-- SET_DAY (41_bcd_codec.md R155). -/
def execSetDay (v : Nat) (s : State) : Host.Outcome State Fault Refusal :=
  runSet .day (validDay v) (bcdByte v dayWidth) s

/-- GET_MONTH (41_bcd_codec.md R156). -/
def execGetMonth (s : State) : Host.Outcome State Fault Refusal :=
  runGet .month (fun b => .value (bcdValue b monthWidth)) s

/-- SET_MONTH (41_bcd_codec.md R157). -/
def execSetMonth (v : Nat) (s : State) : Host.Outcome State Fault Refusal :=
  runSet .month (validMonth v) (bcdByte v monthWidth) s

/-- GET_YEAR (41_bcd_codec.md R158). -/
def execGetYear (s : State) : Host.Outcome State Fault Refusal :=
  runGet .year (fun b => .value (bcdValue b yearWidth)) s

/-- SET_YEAR (41_bcd_codec.md R159). -/
def execSetYear (v : Nat) (s : State) : Host.Outcome State Fault Refusal :=
  runSet .year (validYear v) (bcdByte v yearWidth) s

end Sys2Proof.Machine
end

