-- ==== Sys2Proof/Machine/BitFieldCommands.lean ====
section
/-! DEFINITION. The six commands of control, hours and weekday (42_bitfield_codec.md R180 to R185). -/

namespace Sys2Proof.Machine

/-- GET_CONTROL (42_bitfield_codec.md R180). -/
def execGetControl (s : State) : Host.Outcome State Fault Refusal :=
  runGet .control (fun b => .flags (ctlDecode b)) s

/-- SET_CONTROL: no validator (42_bitfield_codec.md R173, R181). -/
def execSetControl (cs : ControlState) (s : State) : Host.Outcome State Fault Refusal :=
  runSet .control true (ctlEncode cs) s

/-- GET_HOURS (42_bitfield_codec.md R182). -/
def execGetHours (s : State) : Host.Outcome State Fault Refusal :=
  runGet .hours hoursDecode s

/-- SET_HOURS: `mode` comes from the command, never from CONTROL1 (42_bitfield_codec.md R175, R183). -/
def execSetHours (mode : HourMode) (ampm : Bool) (h12 h24 : Nat) (s : State) : Host.Outcome State Fault Refusal :=
  runSet .hours (validHours mode h12 h24) (hoursEncode mode ampm h12 h24) s

/-- GET_WEEKDAY (42_bitfield_codec.md R184). -/
def execGetWeekday (s : State) : Host.Outcome State Fault Refusal :=
  runGet .weekday (fun b => .value (wdDecode b)) s

/-- SET_WEEKDAY (42_bitfield_codec.md R185). -/
def execSetWeekday (v : Nat) (s : State) : Host.Outcome State Fault Refusal :=
  runSet .weekday (validWeekday v) (wdEncode v) s

end Sys2Proof.Machine
end

