-- ==== Sys2Proof/Machine/Dispatch.lean ====
section
/-! DEFINITION. One arm per command of spec/opcode_table.json, each a call of its meaning. -/

namespace Sys2Proof.Machine

def exec (i : Instr) (s : State) : Host.Outcome State Fault Refusal :=
  match i with
  | .getControl => Sys2Proof.Machine.execGetControl s
  | .setControl cs => Sys2Proof.Machine.execSetControl cs s
  | .getSeconds => Sys2Proof.Machine.execGetSeconds s
  | .setSeconds v => Sys2Proof.Machine.execSetSeconds v s
  | .getMinutes => Sys2Proof.Machine.execGetMinutes s
  | .setMinutes v => Sys2Proof.Machine.execSetMinutes v s
  | .getHours => Sys2Proof.Machine.execGetHours s
  | .setHours mode ampm h12 h24 => Sys2Proof.Machine.execSetHours mode ampm h12 h24 s
  | .getDay => Sys2Proof.Machine.execGetDay s
  | .setDay v => Sys2Proof.Machine.execSetDay v s
  | .getWeekday => Sys2Proof.Machine.execGetWeekday s
  | .setWeekday v => Sys2Proof.Machine.execSetWeekday v s
  | .getMonth => Sys2Proof.Machine.execGetMonth s
  | .setMonth v => Sys2Proof.Machine.execSetMonth v s
  | .getYear => Sys2Proof.Machine.execGetYear s
  | .setYear v => Sys2Proof.Machine.execSetYear v s

end Sys2Proof.Machine
end

