-- ==== Sys2Proof/Machine/Step.lean ====
section
/-! DEFINITION. One step of the block: reset, or nothing to run, or one step of the command in flight; then the next
input sample stands at the ports. -/

namespace Sys2Proof.Machine

/-- One step. `rst` wins over every other input of the step (log entry 7). -/
def step (s : State) : Host.Outcome State Fault Refusal :=
  advanceNext
    (if s.inp.rst then .next (resetBlock s)
     else if noCommand s then .next (clearPulses s)
     else exec (current s) s)

/-- `s` with the opcode-table word presented at the command port, so that the very next step accepts it (log entry
10). -/
def State.withFetchWord (s : State) (nbits w : Nat) : State :=
  presentCommand (BitVec.ofNat 24 (w % 2 ^ nbits)) s

end Sys2Proof.Machine
end

