-- ==== Sys2Proof/Machine/Assembler.lean ====
section
/-! DEFINITION. The assembler forms of 30_encoding.md R93 and the command words that table gives them, by its own sums. -/

namespace Sys2Proof.Machine

/-- The control flags an assembler line can name (30_encoding.md R93). -/
inductive ControlFlag
  | capSel
  | stop
  | sr
  | mode1224
  | sie
  | aie
  | cie
deriving DecidableEq, Repr

/-- One assembler line (30_encoding.md R93). -/
inductive AsmLine
  | getControl
  | setControl (cs : Nat)
  | setControlFlags (on : List ControlFlag)
  | getSeconds
  | setSeconds (v : Nat)
  | getMinutes
  | setMinutes (v : Nat)
  | getHours
  | setHoursH24 (v : Nat)
  | setHoursH12 (a v : Nat)
  | getDay
  | setDay (v : Nat)
  | getWeekday
  | setWeekday (v : Nat)
  | getMonth
  | setMonth (v : Nat)
  | getYear
  | setYear (v : Nat)
deriving DecidableEq, Repr

/-- The flags of a flag list: those named are 1 (30_encoding.md R93). -/
def flagsNamed (on : List ControlFlag) : ControlState :=
  { capSel := on.contains .capSel, stop := on.contains .stop, sr := on.contains .sr,
    mode1224 := on.contains .mode1224, sie := on.contains .sie, aie := on.contains .aie, cie := on.contains .cie }

/-- `base + x` as a command word, if `x` is at most `hi`. -/
def assembleSum (base hi x : Nat) : Option CommandWord :=
  if x ≤ hi then some (BitVec.ofNat 24 (base + x)) else none

/-- The command word of an assembler line; none if an operand is out of its written range (30_encoding.md R93). -/
def assemble : AsmLine → Option CommandWord
  | .getControl => some 0x000000
  | .setControl cs => assembleSum 0x100000 127 cs
  | .setControlFlags on => assembleSum 0x100000 127 (flagsToBits (flagsNamed on)).toNat
  | .getSeconds => some 0x200000
  | .setSeconds v => assembleSum 0x300000 255 v
  | .getMinutes => some 0x400000
  | .setMinutes v => assembleSum 0x500000 255 v
  | .getHours => some 0x600000
  | .setHoursH24 v => assembleSum 0x700000 255 v
  | .setHoursH12 a v => if a ≤ 1 ∧ v ≤ 255 then some (BitVec.ofNat 24 (0x720000 + a * 0x10000 + v * 0x100)) else none
  | .getDay => some 0x800000
  | .setDay v => assembleSum 0x900000 255 v
  | .getWeekday => some 0xA00000
  | .setWeekday v => assembleSum 0xB00000 255 v
  | .getMonth => some 0xC00000
  | .setMonth v => assembleSum 0xD00000 255 v
  | .getYear => some 0xE00000
  | .setYear v => assembleSum 0xF00000 255 v

/-- The command an assembler line stands for (30_encoding.md R93). -/
def asmInstr : AsmLine → Instr
  | .getControl => .getControl
  | .setControl cs => .setControl (flagsOfBits (BitVec.ofNat 7 cs))
  | .setControlFlags on => .setControl (flagsNamed on)
  | .getSeconds => .getSeconds
  | .setSeconds v => .setSeconds v
  | .getMinutes => .getMinutes
  | .setMinutes v => .setMinutes v
  | .getHours => .getHours
  | .setHoursH24 v => .setHours .mode24 false 0 v
  | .setHoursH12 a v => .setHours .mode12 (decide (a = 1)) v 0
  | .getDay => .getDay
  | .setDay v => .setDay v
  | .getWeekday => .getWeekday
  | .setWeekday v => .setWeekday v
  | .getMonth => .getMonth
  | .setMonth v => .setMonth v
  | .getYear => .getYear
  | .setYear v => .setYear v

end Sys2Proof.Machine
end

