-- ==== Sys2Proof/Machine/Doubles.lean ====
section
/-! DEFINITION. The three test doubles that may stand in for the bus engine and the peripheral (95_test_vectors.md section
3, D16). None of them is the chip: the machine's own environment is unconstrained. -/

namespace Sys2Proof.Machine

/-- The ideal register file, the engine that always fails, the engine that always rejects. -/
inductive Double
  | registerFile
  | alwaysFail
  | alwaysInvalidArg
deriving DecidableEq, Repr

/-- The block and the register file of the double beside it. -/
structure Bench where
  block : State
  file  : RegFile
deriving DecidableEq, Repr

/-- How a double completes a transaction, and its register file after. -/
def doubleAnswer (d : Double) (t : Txq) (file : RegFile) : Completion × RegFile :=
  match d with
  | .registerFile =>
    match t.kind with
    | .writeOnly => (⟨.ok, 0⟩, memWrite file t.b0.toNat t.b1)
    | .writeThenRead => (⟨.ok, memRead file t.b0.toNat⟩, file)
  | .alwaysFail => (⟨.fail, 0⟩, file)
  | .alwaysInvalidArg => (⟨.invalidArg, 0⟩, file)

/-- One step of the block with the sample `x` at its ports. -/
def stepWith (x : Inputs) (s : State) : Host.Outcome State Fault Refusal := step { s with inp := x }

/-- `f` after a next state. -/
def afterNext {α β : Type} (o : Host.Outcome α Fault Refusal) (f : α → Host.Outcome β Fault Refusal) :
    Host.Outcome β Fault Refusal :=
  match o with
  | .next a => f a
  | .fault e => .fault e
  | .refused r => .refused r

/-- The double completes the transaction in flight, before any tick; a block that waits for nothing is left alone. -/
def doubleCompletes (d : Double) (b : Bench) : Host.Outcome Bench Fault Refusal :=
  if b.block.ph = .wait then
    afterNext
      (stepWith { quietInputs with txcValid := true, txc := packCompletion (doubleAnswer d b.block.txq b.file).1 } b.block)
      (fun t => .next ⟨t, (doubleAnswer d b.block.txq b.file).2⟩)
  else .next b

/-- The host sends the command word `cw` and the double completes it: the block then holds the response. -/
def benchCommand (d : Double) (cw : CommandWord) (b : Bench) : Host.Outcome Bench Fault Refusal :=
  afterNext (stepWith { quietInputs with cmdValid := true, cmd := cw } b.block)
    (fun t => doubleCompletes d ⟨t, b.file⟩)

/-- The host takes the response. -/
def benchTake (b : Bench) : Host.Outcome Bench Fault Refusal :=
  afterNext (stepWith { quietInputs with rspReady := true } b.block) (fun t => .next ⟨t, b.file⟩)

end Sys2Proof.Machine
end

