-- ==== Sys2Proof/Machine/Tables.lean ====
section
/-! DEFINITION. The tables of the single-transaction state machine by the fields of the command word
(40_transaction_fsm.md R112, R114, R120): the second description the spec gives of the sixteen commands. No meaning of an
instruction uses them; statements compare the two. -/

namespace Sys2Proof.Machine

/-- `Valid(CMD)`, read only when `WR = 1` (40_transaction_fsm.md R120). -/
def validWord (cw : CommandWord) : Bool :=
  match wordField cw with
  | .control => true
  | .seconds => decide (wordArg0 cw ≤ 59)
  | .minutes => decide (wordArg0 cw ≤ 59)
  | .hours =>
    match wordMode cw with
    | .mode24 => decide (wordArg0 cw ≤ 23)
    | .mode12 => decide (1 ≤ wordArg1 cw ∧ wordArg1 cw ≤ 12)
  | .day => decide (1 ≤ wordArg0 cw ∧ wordArg0 cw ≤ 31)
  | .weekday => decide (wordArg0 cw ≤ 6)
  | .month => decide (1 ≤ wordArg0 cw ∧ wordArg0 cw ≤ 12)
  | .year => decide (1 ≤ wordArg0 cw ∧ wordArg0 cw ≤ 99)

/-- A word whose command issues its transaction: every get, and a set that passes the validator (R111). -/
def passes (cw : CommandWord) : Bool := !wordIsSet cw || validWord cw

/-- `Encode(CMD)`, chosen by `FSEL` (40_transaction_fsm.md R112). -/
def encodeByte (cw : CommandWord) : Byte :=
  match wordField cw with
  | .control => ctlEncode (wordFlags cw)
  | .seconds => bcdByte (wordArg0 cw) 3
  | .minutes => bcdByte (wordArg0 cw) 3
  | .hours => hoursEncode (wordMode cw) (wordAmPm cw) (wordArg1 cw) (wordArg0 cw)
  | .day => bcdByte (wordArg0 cw) 2
  | .weekday => wdEncode (wordArg0 cw)
  | .month => bcdByte (wordArg0 cw) 1
  | .year => bcdByte (wordArg0 cw) 4

/-- `FormTxq(CMD)` (40_transaction_fsm.md R112). -/
def formTxq (cw : CommandWord) : Txq :=
  if wordIsSet cw then
    { kind := .writeOnly, dev := 0x68, b0 := regAddr (wordField cw), b1 := encodeByte cw }
  else
    { kind := .writeThenRead, dev := 0x68, b0 := regAddr (wordField cw), b1 := 0 }

/-- `Decode(FSEL, rx)` (40_transaction_fsm.md R114). -/
def decodeByte (f : Field) (rx : Byte) : Payload :=
  match f with
  | .control => .flags (ctlDecode rx)
  | .seconds => .value (bcdValue rx 3)
  | .minutes => .value (bcdValue rx 3)
  | .hours => hoursDecode rx
  | .day => .value (bcdValue rx 2)
  | .weekday => .value (wdDecode rx)
  | .month => .value (bcdValue rx 1)
  | .year => .value (bcdValue rx 4)

/-- The payload a completed command answers with: the decoded byte of a get, none of a set (R113). -/
def wordPayload (cw : CommandWord) (rx : Byte) : Option Payload :=
  if wordIsSet cw then none else some (decodeByte (wordField cw) rx)

end Sys2Proof.Machine
end

