-- ==== Sys2Proof/Safety.lean ====
section
/-! DEFINITION. The terms claims are stated in: the invariant, what a command's contract says, the events of a step, what the
outside can observe, the obligations of the bus engine, and the block without a clock. -/

namespace Sys2Proof.Machine

/-! ### The invariant -/

/-- Which commands are gets. -/
def isGet : Instr → Bool
  | .getControl => true
  | .setControl _ => false
  | .getSeconds => true
  | .setSeconds _ => false
  | .getMinutes => true
  | .setMinutes _ => false
  | .getHours => true
  | .setHours _ _ _ _ => false
  | .getDay => true
  | .setDay _ => false
  | .getWeekday => true
  | .setWeekday _ => false
  | .getMonth => true
  | .setMonth _ => false
  | .getYear => true
  | .setYear _ => false

/-- The shape and reach of a present payload (30_encoding.md R84; 41_bcd_codec.md R143): what the decoder of the command
can produce from any byte. A set has none. -/
def payloadFits (i : Instr) (p : Payload) : Prop :=
  match i with
  | .getControl => ∃ cs, p = .flags cs
  | .getSeconds => ∃ v, p = .value v ∧ v.toNat ≤ 85
  | .getMinutes => ∃ v, p = .value v ∧ v.toNat ≤ 85
  | .getHours => ∃ ampm h12 h24, p = .hours ampm h12 h24 ∧ h12.toNat ≤ 25 ∧ h24.toNat ≤ 45
  | .getDay => ∃ v, p = .value v ∧ v.toNat ≤ 45
  | .getWeekday => ∃ v, p = .value v ∧ v.toNat ≤ 7
  | .getMonth => ∃ v, p = .value v ∧ v.toNat ≤ 25
  | .getYear => ∃ v, p = .value v ∧ v.toNat ≤ 165
  | .setControl _ => False
  | .setSeconds _ => False
  | .setMinutes _ => False
  | .setHours _ _ _ _ => False
  | .setDay _ => False
  | .setWeekday _ => False
  | .setMonth _ => False
  | .setYear _ => False

/-- A response a command can end with: the payload is present exactly on the success of a get, in that get's shape
(30_encoding.md R83, R84). -/
def responseFits (i : Instr) (r : Response) : Prop :=
  (r.payload.isSome = true ↔ r.result = .success ∧ isGet i = true) ∧ ∀ p, r.payload = some p → payloadFits i p

/-- What holds of the machine after every step: `tmr` never passes TIMEOUT (10_state.md R24); the register file keeps
its form and its free bytes were drawn before; in WAIT the transaction is the one its accepted command forms and the timeout has not come (R23; 40 R111,
R116); in RESP the response is one its command can end with (R25); `txq_valid` and `tx_abort` pulse only where they may
(R31). -/
structure Inv (s : State) : Prop where
  timer_bounded : s.tmr.toNat ≤ 100
  file_wf : Memory.wf s.per.known
  file_drawn : s.per.base ≤ s.draw
  waiting : s.ph = .wait → s.txq = formTxq s.cmd ∧ passes s.cmd = true ∧ s.tmr.toNat < 100
  responding : s.ph = .resp → responseFits (decode s.cmd) s.rsp
  request_pulse : s.txqValid = true → s.ph = .wait ∧ s.tmr = 0
  abort_pulse : s.txAbort = true → s.ph ≠ .wait ∧ s.txqValid = false

/-! ### What a command rule says -/

/-- The transaction `t` is in flight and no reset or other port event is looked at but the ones named by a clause. -/
def inFlight (t : Txq) (s : State) : Prop := s.ph = .wait ∧ s.txq = t

/-- The parts of a command that a get and a set share once their transaction `t` is in flight: rejection by the bus
engine, failure, a tick, the timeout, waiting (40_transaction_fsm.md R113, R115, R116), and the delivery of the response
(R119). Every field not named is unchanged; a failure leaves the register file open (U1), and
waiting leaves it as it is (log entry 14). -/
structure OutcomeContract (i : Instr) (t : Txq) : Prop where
  rejected : ∀ s, inFlight t s → s.inp.txcValid = true → (completion s).status = .invalidArg →
    exec i s = .next { s with rsp := ⟨.invalidParam, none⟩, ph := .resp, txqValid := false, txAbort := false }
  failed : ∀ s, inFlight t s → s.inp.txcValid = true →
    ((completion s).status = .fail ∨ (completion s).status = .other) →
    ∃ file, exec i s = .next { s with
      rsp := ⟨.commFailure, none⟩, ph := .resp, txqValid := false, txAbort := false, per := file }
  ticked : ∀ s, inFlight t s → s.inp.txcValid = false → s.inp.tick = true → s.tmr.toNat ≤ 98 →
    exec i s = .next { s with tmr := s.tmr + 1, txqValid := false, txAbort := false }
  timed_out : ∀ s, inFlight t s → s.inp.txcValid = false → s.inp.tick = true → s.tmr.toNat = 99 →
    ∃ file, exec i s = .next { s with
      tmr := 100, rsp := ⟨.commFailure, none⟩, ph := .resp, txqValid := false, txAbort := true, per := file }
  waited : ∀ s, inFlight t s → s.inp.txcValid = false → s.inp.tick = false →
    exec i s = .next { s with txqValid := false, txAbort := false }
  delivered : ∀ s, s.ph = .resp → s.inp.rspReady = true →
    exec i s = .next { s with ph := .idle, txqValid := false, txAbort := false }

/-- The record of a register read (20_memory.md R56; 30_encoding.md R86). -/
def readRecord (addr : Byte) : Txq := ⟨.writeThenRead, 0x68, addr, 0⟩

/-- The record of a register write (20_memory.md R57; 30_encoding.md R86). -/
def writeRecord (addr data : Byte) : Txq := ⟨.writeOnly, 0x68, addr, data⟩

/-- The whole rule of a get: its opcode, whatever the ignored bits; its read of register `addr`; `Success` with `value b`
for the byte `b` read, no register changed by the read (log entry 17); and the other outcomes. -/
structure GetContract (i : Instr) (opcode : BitVec 4) (addr : Byte) (value : Byte → Payload) : Prop where
  opcode_decodes : ∀ cw : CommandWord, cw.extractLsb' 20 4 = opcode → decode cw = i
  word : (encode i).toNat = opcode.toNat * 2 ^ 20
  accepted : ∀ s, s.ph = .idle →
    exec i s = .next { s with
      cmd := s.inp.cmd, txq := readRecord addr, tmr := 0, ph := .wait, txqValid := true, txAbort := false }
  answered : ∀ s b, inFlight (readRecord addr) s → s.inp.txcValid = true → completion s = ⟨.ok, b⟩ →
    exec i s = .next { s with
      rsp := ⟨.success, some (value b)⟩, ph := .resp, txqValid := false, txAbort := false }
  outcomes : OutcomeContract i (readRecord addr)

/-- The whole rule of a set on one operand: its word, whatever the bits outside `mask`; refusal with `InvalidParam` and no transaction when `valid` fails; its
write of `data` to register `addr`; `Success` with no payload, the register file then holding `data` there (R57, R123 (d);
in that step, log entry 14, and nothing else of it changed, log entry 17); and the other outcomes. -/
structure SetContract (i : Instr) (mask word : CommandWord) (addr : Byte) (valid : Prop) (data : Byte) : Prop where
  word_decodes : ∀ cw, cw &&& mask = word → decode cw = i
  word_encodes : encode i = word
  refused : ¬ valid → ∀ s, s.ph = .idle →
    exec i s = .next { s with
      cmd := s.inp.cmd, rsp := ⟨.invalidParam, none⟩, ph := .resp, txqValid := false, txAbort := false }
  accepted : valid → ∀ s, s.ph = .idle →
    exec i s = .next { s with
      cmd := s.inp.cmd, txq := writeRecord addr data, tmr := 0, ph := .wait, txqValid := true, txAbort := false }
  stored : valid → ∀ s, inFlight (writeRecord addr data) s → s.inp.txcValid = true → (completion s).status = .ok →
    exec i s = .next { s with
      rsp := ⟨.success, none⟩, ph := .resp, txqValid := false, txAbort := false, per := memWrite s.per addr.toNat data }
  outcomes : valid → OutcomeContract i (writeRecord addr data)

/-- The number two BCD digits stand for, by the bits of the register formats: `w` tens bits from bit 4, units in bits
3:0 (10_state.md R35 to R41). -/
def twoDigits (w : Nat) (b : Byte) : Byte := BitVec.ofNat 8 (10 * (b.extractLsb' 4 w).toNat + (b.extractLsb' 0 4).toNat)

/-- The byte with the tens digit of `v` in its high nibble and the units digit in its low nibble (10_state.md R42). -/
def digitByte (v : Nat) : Byte := BitVec.ofNat 8 (16 * (v / 10) + v % 10)

/-! ### Command words and register bytes by their bits -/

/-- The bits of a word that its command reads (30_encoding.md R89). -/
def readBits (cw : CommandWord) : CommandWord :=
  match wordField cw, wordIsSet cw with
  | .control, true => 0xF0007F
  | .hours, true => if cw.getLsbD 17 then 0xF3FF00 else 0xF200FF
  | .seconds, true => 0xF000FF
  | .minutes, true => 0xF000FF
  | .day, true => 0xF000FF
  | .weekday, true => 0xF000FF
  | .month, true => 0xF000FF
  | .year, true => 0xF000FF
  | .control, false => 0xF00000
  | .hours, false => 0xF00000
  | .seconds, false => 0xF00000
  | .minutes, false => 0xF00000
  | .day, false => 0xF00000
  | .weekday, false => 0xF00000
  | .month, false => 0xF00000
  | .year, false => 0xF00000

/-- The bits of the register at an address that the spec does not name (10_state.md R34 to R41; 30_encoding.md R88). -/
def unnamedBits (addr : Nat) : Byte :=
  if addr = 0 then 0x40
  else if addr = 3 then 0x80
  else if addr = 4 then 0x80
  else if addr = 5 then 0xC0
  else if addr = 6 then 0xC0
  else if addr = 7 then 0xF8
  else if addr = 8 then 0xE0
  else 0x00

/-! ### The events of a step -/

/-- The step accepts a command (10_state.md R29); a reset step accepts none (log entry 7). -/
def accepts (s : State) : Bool := decide (s.ph = .idle) && s.inp.cmdValid && !s.inp.rst

/-- The step delivers a response (10_state.md R30); a reset step delivers none (log entry 7). -/
def delivers (s : State) : Bool := decide (s.ph = .resp) && s.inp.rspReady && !s.inp.rst

/-- The step is the timeout step (40_transaction_fsm.md R116), which a reset step is not (log entry 7). -/
def timesOut (s : State) : Bool :=
  decide (s.ph = .wait) && s.inp.tick && !s.inp.txcValid && !s.inp.rst && decide (s.tmr.toNat = 99)

/-- Commands accepted and not yet answered: 0 or 1. -/
def pendingCommands (s : State) : Nat := if s.ph = .idle then 0 else 1

/-- Transactions issued and not yet ended: 0 or 1. -/
def openTransactions (s : State) : Nat := if s.ph = .wait then 1 else 0

/-! ### What the outside observes -/

/-- The output ports, each value only where its valid line or pulse says that it is one (10_state.md R29 to R31). -/
structure Outputs where
  cmdReady : Bool
  response : Option (BitVec 19)
  request  : Option (BitVec 24)
  abort    : Bool
deriving DecidableEq, Repr

/-- The outputs of the step just taken. -/
def outputs (s : State) : Outputs :=
  { cmdReady := Sys2Proof.Machine.cmdReady s
    response := if rspValid s then some (rspPort s) else none
    request := if s.txqValid then some (txqPort s) else none
    abort := s.txAbort }

/-! ### The bus engine's obligations -/

/-- The bus engine keeps 40_transaction_fsm.md R123 (a) and (b) in this step: it presents a completion only while a
transaction is open. The machine does not assume it (log entry 12). -/
def engineKeepsToRequests (s : State) : Prop := s.inp.txcValid = true → s.ph = .wait

/-! ### The block without a clock (40_transaction_fsm.md R124) -/

/-- The state with the timeout counter dropped. -/
def untimed (s : State) : State := { s with tmr := 0 }

/-- The forced timeout: CommFailure with a `tx_abort` pulse, at any moment in WAIT. -/
def forceTimeout (s : State) : State :=
  { s with rsp := ⟨.commFailure, none⟩, ph := .resp, txqValid := false, txAbort := true, per := memForget s.draw }

/-- A step of the block with no time: in WAIT with no completion presented the environment chooses, by `force`, between
waiting on and the forced timeout; every other step is the block's. -/
def freeTimeoutStep (force : Bool) (s : State) : Host.Outcome State Fault Refusal :=
  if s.ph = .wait ∧ s.inp.txcValid = false ∧ s.inp.rst = false then
    .next (advance (if force then forceTimeout s else clearPulses s))
  else step s

/-! ### Runs -/

/-- `n` steps of the machine, stopping at the first fault or refusal. -/
def runSteps : Nat → State → Host.Outcome State Fault Refusal
  | 0, s => .next s
  | n + 1, s => afterNext (step s) (runSteps n)

/-- The samples a run of `n` steps from `s` looks at, as far as they are queued. -/
def samples (s : State) : List Inputs := s.inp :: s.upcoming

/-- A sample with a tick alone. -/
def tickSample : Inputs := { quietInputs with tick := true }

/-- A sample with a command alone. -/
def commandSample (cw : CommandWord) : Inputs := { quietInputs with cmdValid := true, cmd := cw }

/-- A sample with a completion alone. -/
def completionSample (c : Completion) : Inputs := { quietInputs with txcValid := true, txc := packCompletion c }

/-- Against the ideal register file RF, from any idle state and any file: the set `i` answers `Success` with no payload,
and once the host has taken that, the get `j` answers `Success` with a payload that meets `ok`. -/
def ReadsBack (i j : Instr) (ok : Payload → Prop) : Prop :=
  ∀ b : Bench, b.block.ph = .idle →
    ∃ b1 b2 b3 p, benchCommand .registerFile (encode i) b = .next b1 ∧
      b1.block.ph = .resp ∧ b1.block.rsp = ⟨.success, none⟩ ∧ benchTake b1 = .next b2 ∧
      benchCommand .registerFile (encode j) b2 = .next b3 ∧
      b3.block.ph = .resp ∧ b3.block.rsp = ⟨.success, some p⟩ ∧ ok p

/-- The response a completion gives to the command word `cw` (40_transaction_fsm.md R113, R117). -/
def responseTo (cw : CommandWord) (c : Completion) : Response :=
  match c.status with
  | .ok => ⟨.success, wordPayload cw c.rx⟩
  | .invalidArg => ⟨.invalidParam, none⟩
  | .fail => ⟨.commFailure, none⟩
  | .other => ⟨.commFailure, none⟩

end Sys2Proof.Machine
end

