-- ==== Sys2Proof/Certificates/Slice0/Obligations.lean ====
section
/-! DEFINITION. The statements for the provers, from the numbered rules of spec/. -/

open Sys2Proof Sys2Proof.Machine

/-! ### Encoding -/

/-- Decoding the word assembled for a well-formed command gives the command back, with every operand at every value
(30_encoding.md R80 to R82). -/
def Obligations.DecodeOfEncodeIsTheCommand : Prop :=
  ∀ i : Instr, i.wellFormed = true → decode (encode i) = i

/-- R89: two command words that differ only in ignored bits have the same effect, in every phase. -/
def Obligations.IgnoredBitsDoNotChangeTheEffect : Prop :=
  ∀ (cw cw' : CommandWord) (s : State), cw &&& readBits cw = cw' &&& readBits cw →
    exec (decode cw) s = exec (decode cw') s

/-- R80, R81, R82: a few words written out bit by bit from the opcode map decode to their commands. -/
def Obligations.SampleWordsDecode : Prop :=
  decode 0b0000_0000_0000_0000_0000_0000#24 = .getControl ∧
  decode 0b0001_0000_0000_0000_0100_1010#24 = .setControl ⟨true, false, false, true, false, true, false⟩ ∧
  decode 0b0011_0000_0000_0000_0011_1010#24 = .setSeconds 58 ∧
  decode 0b0111_0011_0000_1011_0000_0000#24 = .setHours .mode12 true 11 0 ∧
  decode 0b1010_0000_0000_0000_0000_0000#24 = .getWeekday ∧
  decode 0b1111_0000_0000_0000_0110_0011#24 = .setYear 99

/-- R93: the word an assembler line assembles to decodes to the command the line stands for, and the encoder gives that
command the same word. -/
def Obligations.AssembledLinesDecode : Prop :=
  ∀ (l : AsmLine) (cw : CommandWord), assemble l = some cw → decode cw = asmInstr l ∧ encode (asmInstr l) = cw

/-- R83, R86, R87: the packed request, the completion port and the packed response, as sums of their fields, with the
result codes of R200 as numbers (3 is never produced); and the bytes a request writes and reads, in order (R55, R86). The
zeros driven for an absent payload are no value. -/
def Obligations.PackedRecordsFollowTheirLayouts : Prop :=
  (∀ t : Txq, (packTxq t).toNat =
      (if t.kind = .writeThenRead then 2 ^ 23 else 0) + t.dev.toNat * 2 ^ 16 + t.b0.toNat * 2 ^ 8 + t.b1.toNat) ∧
  (∀ t : Txq, (t.kind = .writeOnly → bytesWritten t = [t.b0, t.b1] ∧ bytesRead t = 0) ∧
    (t.kind = .writeThenRead → bytesWritten t = [t.b0] ∧ bytesRead t = 1)) ∧
  (∀ txc : BitVec 10, unpackCompletion txc =
      ⟨if txc.toNat / 256 = 0 then .ok else if txc.toNat / 256 = 1 then .fail
        else if txc.toNat / 256 = 2 then .invalidArg else .other, BitVec.ofNat 8 txc.toNat⟩) ∧
  (∀ (r : Result) (code : Nat), (r, code) ∈ [(Result.success, 0), (.commFailure, 1), (.invalidParam, 2)] →
    (∀ (ampm : Bool) (h12 h24 : Byte), (packResponse ⟨r, some (.hours ampm h12 h24)⟩).toNat =
      code * 2 ^ 17 + (if ampm then 2 ^ 16 else 0) + h12.toNat * 2 ^ 8 + h24.toNat) ∧
    (∀ v : Byte, (packResponse ⟨r, some (.value v)⟩).toNat = code * 2 ^ 17 + v.toNat) ∧
    (∀ cap stop sr mode sie aie cie : Bool, (packResponse ⟨r, some (.flags ⟨cap, stop, sr, mode, sie, aie, cie⟩)⟩).toNat =
      code * 2 ^ 17 + 64 * cap.toNat + 32 * stop.toNat + 16 * sr.toNat + 8 * mode.toNat + 4 * sie.toNat + 2 * aie.toNat +
        cie.toNat) ∧
    (packResponse ⟨r, none⟩).toNat = code * 2 ^ 17) ∧
  (∀ r : Response, (packResponse r).toNat / 2 ^ 17 ≠ 3)

/-! ### A step and a command -/

/-- With no reset and a command to run, a step is `exec` of the command in flight, after which the next input sample
stands at the ports: the command at the command port in IDLE, the one latched in `CMD` otherwise. That one `exec` takes a
command through all its phases, how input samples follow one another, and that the peripheral's own changes land last,
are the model's choices (log entries 4, 11, 16). -/
def Obligations.StepRunsTheCommandInFlight : Prop :=
  ∀ s : State, s.inp.rst = false →
    (s.ph = .idle → s.inp.cmdValid = true → step s = advanceNext (exec (decode s.inp.cmd) s)) ∧
    (s.ph = .wait → step s = advanceNext (exec (decode s.cmd) s)) ∧
    (s.ph = .resp → step s = advanceNext (exec (decode s.cmd) s)) ∧
    (∀ t, exec (current s) s = .next t → advanceNext (exec (current s) s) = .next { t with
      per := ownChanges t.inp.own t.per
      inp := t.upcoming.headD (Config.freeInputs t.draw)
      upcoming := t.upcoming.tail
      draw := t.draw + 1 })

/-- Presenting a table word makes the very next step accept the command it decodes to. How a word is presented is the
model's choice (log entry 10). -/
def Obligations.PresentedWordIsAcceptedNext : Prop :=
  ∀ (s : State) (w : Nat), w < 2 ^ 24 →
    ∃ i, decodeTableWord 24 w = some i ∧ step (s.withFetchWord 24 w) = advanceNext (exec i (s.withFetchWord 24 w)) ∧
      ∃ t, step (s.withFetchWord 24 w) = .next t ∧ t.cmd = BitVec.ofNat 24 w ∧ t.ph ≠ .idle

/-- In IDLE with no command and no reset, the step only ends the pulses of the step before and passes time. -/
def Obligations.StepWithoutACommandChangesNoLatch : Prop :=
  ∀ s : State, s.inp.rst = false → s.ph = .idle → s.inp.cmdValid = false →
    step s = .next (advance { s with txqValid := false, txAbort := false })

/-- R230, R231: what a reset step leaves. The data latches are not constrained. That `rst` wins over the other inputs of
the step is the model's reading (log entry 7), a register file of new free bytes its form of U1 (log entry 6), and that
the peripheral's own changes land after that its choice (log entry 16). -/
def Obligations.ResetStepAbandonsTheCommand : Prop :=
  ∀ s : State, s.inp.rst = true → ∃ t, step s = .next t ∧
    t.ph = .idle ∧ t.tmr = 0 ∧ cmdReady t = true ∧ rspValid t = false ∧ t.txqValid = false ∧
    (t.txAbort = true ↔ s.ph = .wait) ∧
    t.per = ownChanges s.inp.own (if s.ph = .wait then memForget s.draw else s.per)

/-- R44, the values the spec gives: IDLE, `tmr` 0, the command port open, nothing valid or pulsed. -/
def Obligations.ResetLeavesTheBlockIdle : Prop :=
  State.reset.ph = .idle ∧ State.reset.tmr = 0 ∧ cmdReady State.reset = true ∧ rspValid State.reset = false ∧
    State.reset.txqValid = false ∧ State.reset.txAbort = false

/-- The state after reset meets the invariant. -/
def Obligations.ResetStateMeetsTheInvariant : Prop := Inv State.reset

/-- Every step from a state that meets the invariant gives a state that meets it. -/
def Obligations.EveryStepKeepsTheInvariant : Prop :=
  ∀ s t : State, Inv s → step s = .next t → Inv t

/-- R89, R205: there is no trap. A state that meets the invariant never stops: `exec` of any command, and the step, answer a next state. -/
def Obligations.NoStepFaultsUnderTheInvariant : Prop :=
  ∀ s : State, Inv s → (∃ t, step s = .next t) ∧ ∀ i, ∃ t, exec i s = .next t

/-! ### The sixteen commands

In each contract two points are the model's choice: that nothing is stored while a transaction waits and that a set's
byte is stored in the completion step (log entry 14), and that a successful read changes no register and a successful
write no other (log entry 17). -/

/-- R180. That the file stays as it is while the read waits and when it succeeds is the model's choice (log entries 14,
17). -/
def Obligations.GetControlReadsTheSevenFlags : Prop :=
  GetContract .getControl 0x0 0x00 (fun b => .flags
    ⟨b.getLsbD 7, b.getLsbD 5, b.getLsbD 4, b.getLsbD 3, b.getLsbD 2, b.getLsbD 1, b.getLsbD 0⟩)

/-- R181. The word is the opcode and the seven flags packed with no gap; the byte has `cap_sel` at bit 7 and 0 at bit 6. That
the byte is stored in the completion step, and alone, is the model's choice (log entries 14, 17). -/
def Obligations.SetControlWritesTheSevenFlags : Prop :=
  ∀ cap stop sr mode sie aie cie : Bool,
    SetContract (.setControl ⟨cap, stop, sr, mode, sie, aie, cie⟩) 0xF0007F
      (BitVec.ofNat 24 (0x100000 + (64 * cap.toNat + 32 * stop.toNat + 16 * sr.toNat + 8 * mode.toNat + 4 * sie.toNat +
        2 * aie.toNat + cie.toNat)))
      0x00 True
      (BitVec.ofNat 8 (128 * cap.toNat + 32 * stop.toNat + 16 * sr.toNat + 8 * mode.toNat + 4 * sie.toNat +
        2 * aie.toNat + cie.toNat))

/-- R150. That the file stays as it is while the read waits and when it succeeds is the model's choice (log entries 14,
17). -/
def Obligations.GetSecondsReadsTwoDigits : Prop :=
  GetContract .getSeconds 0x2 0x03 (fun b => .value (twoDigits 3 b))

/-- R151. That the byte is stored in the completion step, and alone, is the model's choice (log entries 14, 17). -/
def Obligations.SetSecondsWritesTwoDigits : Prop :=
  ∀ v < 256, SetContract (.setSeconds v) 0xF000FF (BitVec.ofNat 24 (0x300000 + v)) 0x03 (v ≤ 59) (digitByte v)

/-- R152. That the file stays as it is while the read waits and when it succeeds is the model's choice (log entries 14,
17). -/
def Obligations.GetMinutesReadsTwoDigits : Prop :=
  GetContract .getMinutes 0x4 0x04 (fun b => .value (twoDigits 3 b))

/-- R153. That the byte is stored in the completion step, and alone, is the model's choice (log entries 14, 17). -/
def Obligations.SetMinutesWritesTwoDigits : Prop :=
  ∀ v < 256, SetContract (.setMinutes v) 0xF000FF (BitVec.ofNat 24 (0x500000 + v)) 0x04 (v ≤ 59) (digitByte v)

/-- R182: the AM/PM bit and both readings of one byte. That the file stays as it is while the read waits and when it
succeeds is the model's choice (log entries 14, 17). -/
def Obligations.GetHoursReadsBothRepresentations : Prop :=
  GetContract .getHours 0x6 0x05 (fun b => .hours (b.getLsbD 5) (twoDigits 1 b) (twoDigits 2 b))

/-- R183: in 24-hour mode `AMPM` and `ARG1` are not looked at, in 12-hour mode `ARG0` is not. That the byte is stored in
the completion step, and alone, is the model's choice (log entries 14, 17). -/
def Obligations.SetHoursWritesTheSelectedHour : Prop :=
  ∀ (ampm : Bool), ∀ h12 < 256, ∀ h24 < 256,
    SetContract (.setHours .mode24 ampm h12 h24) 0xF3FFFF
      (BitVec.ofNat 24 (0x700000 + 0x10000 * ampm.toNat + 0x100 * h12 + h24)) 0x05 (h24 ≤ 23) (digitByte h24) ∧
    SetContract (.setHours .mode12 ampm h12 h24) 0xF3FFFF
      (BitVec.ofNat 24 (0x720000 + 0x10000 * ampm.toNat + 0x100 * h12 + h24)) 0x05 (1 ≤ h12 ∧ h12 ≤ 12)
      (BitVec.ofNat 8 (32 * ampm.toNat) + digitByte h12)

/-- R154. That the file stays as it is while the read waits and when it succeeds is the model's choice (log entries 14,
17). -/
def Obligations.GetDayReadsTwoDigits : Prop :=
  GetContract .getDay 0x8 0x06 (fun b => .value (twoDigits 2 b))

/-- R155. That the byte is stored in the completion step, and alone, is the model's choice (log entries 14, 17). -/
def Obligations.SetDayWritesTwoDigits : Prop :=
  ∀ v < 256, SetContract (.setDay v) 0xF000FF (BitVec.ofNat 24 (0x900000 + v)) 0x06 (1 ≤ v ∧ v ≤ 31) (digitByte v)

/-- R184. That the file stays as it is while the read waits and when it succeeds is the model's choice (log entries 14,
17). -/
def Obligations.GetWeekdayReadsThreeBits : Prop :=
  GetContract .getWeekday 0xA 0x07 (fun b => .value ((b.extractLsb' 0 3).zeroExtend 8))

/-- R185. That the byte is stored in the completion step, and alone, is the model's choice (log entries 14, 17). -/
def Obligations.SetWeekdayWritesThreeBits : Prop :=
  ∀ v < 256, SetContract (.setWeekday v) 0xF000FF (BitVec.ofNat 24 (0xB00000 + v)) 0x07 (v ≤ 6) (BitVec.ofNat 8 (v % 8))

/-- R156. That the file stays as it is while the read waits and when it succeeds is the model's choice (log entries 14,
17). -/
def Obligations.GetMonthReadsTwoDigits : Prop :=
  GetContract .getMonth 0xC 0x08 (fun b => .value (twoDigits 1 b))

/-- R157. That the byte is stored in the completion step, and alone, is the model's choice (log entries 14, 17). -/
def Obligations.SetMonthWritesTwoDigits : Prop :=
  ∀ v < 256, SetContract (.setMonth v) 0xF000FF (BitVec.ofNat 24 (0xD00000 + v)) 0x08 (1 ≤ v ∧ v ≤ 12) (digitByte v)

/-- R158. That the file stays as it is while the read waits and when it succeeds is the model's choice (log entries 14,
17). -/
def Obligations.GetYearReadsTwoDigits : Prop :=
  GetContract .getYear 0xE 0x09 (fun b => .value (twoDigits 4 b))

/-- R159. That the byte is stored in the completion step, and alone, is the model's choice (log entries 14, 17). -/
def Obligations.SetYearWritesTwoDigits : Prop :=
  ∀ v < 256, SetContract (.setYear v) 0xF000FF (BitVec.ofNat 24 (0xF00000 + v)) 0x09 (1 ≤ v ∧ v ≤ 99) (digitByte v)

/-! ### The state machine -/

/-- R112, R114, R120: for every command word, its meaning is the state machine of 40_transaction_fsm.md driven by the
tables by `FSEL`. -/
def Obligations.CommandsFollowTheFselTables : Prop :=
  ∀ (cw : CommandWord) (s : State),
    exec (decode cw) s = runCommand (passes cw) (formTxq cw) (wordPayload cw) s

/-- R115. That the register file keeps its bytes while a write waits is the model's choice (log entry 14), as are that only
the peripheral's own changes then land in it and how the next sample comes to the ports (log entries 4, 16). -/
def Obligations.TickStepCountsOne : Prop :=
  (∀ s : State, s.inp.rst = false → s.ph = .wait → s.inp.tick = true → s.inp.txcValid = false → s.tmr.toNat ≤ 98 →
    step s = .next (advance { s with tmr := s.tmr + 1, txqValid := false, txAbort := false }) ∧
      (s.tmr + 1).toNat = s.tmr.toNat + 1) ∧
  ∀ (s : State) (x : Bool), s.ph ≠ .wait → step { s with inp := { s.inp with tick := x } } = step s

/-- R116: the peripheral is left open, but for its own changes in the step, which land last by the model's choice (log
entry 16). -/
def Obligations.HundredthTickTimesOut : Prop :=
  ∀ s : State, s.inp.rst = false → s.ph = .wait → s.inp.tick = true → s.inp.txcValid = false → s.tmr.toNat = 99 →
    ∃ file, step s = .next (advance { s with
      tmr := 100, txAbort := true, txqValid := false, rsp := ⟨.commFailure, none⟩, ph := .resp, per := file })

/-- R117: with a completion the tick is dropped whatever `tmr` is, and the status gives the result; a failure of either
kind and a timeout leave the same response, so no record of which it was. -/
def Obligations.CompletionWinsOverTick : Prop :=
  (∀ s : State, s.inp.rst = false → s.ph = .wait → s.inp.txcValid = true →
    (∀ x, step { s with inp := { s.inp with tick := x } } = step s) ∧
    ∃ t, step s = .next t ∧ t.ph = .resp ∧ t.tmr = s.tmr ∧ t.txAbort = false ∧
      t.rsp.result =
        (match (completion s).status with
          | .ok => .success
          | .invalidArg => .invalidParam
          | .fail => .commFailure
          | .other => .commFailure) ∧
      (t.rsp.result = .commFailure → t.rsp = ⟨.commFailure, none⟩)) ∧
  ∀ s : State, s.inp.rst = false → s.ph = .wait → s.inp.txcValid = false → s.inp.tick = true → s.tmr.toNat = 99 →
    ∃ t, step s = .next t ∧ t.ph = .resp ∧ t.rsp = ⟨.commFailure, none⟩

/-- R119: the host takes the response, every latch but `ph` keeps its bits, the command port is open. -/
def Obligations.DeliverStepReturnsToIdle : Prop :=
  ∀ s : State, s.inp.rst = false → s.ph = .resp → s.inp.rspReady = true →
    ∃ t, step s = .next t ∧ t.ph = .idle ∧ cmdReady t = true ∧ t.cmd = s.cmd ∧ t.txq = s.txq ∧ t.tmr = s.tmr ∧
      t.rsp = s.rsp ∧ t.txqValid = false ∧ t.txAbort = false

/-- R122 (and R66): an input the phase does not look at changes nothing, whatever it is. -/
def Obligations.IgnoredInputsChangeNothing : Prop :=
  ∀ (s : State) (v x y : Bool) (c : BitVec 10) (w : CommandWord),
    (s.ph ≠ .wait → step { s with inp := { s.inp with txcValid := v, txc := c, tick := x } } = step s) ∧
    (s.ph ≠ .idle → step { s with inp := { s.inp with cmdValid := v, cmd := w } } = step s) ∧
    (s.ph ≠ .resp → step { s with inp := { s.inp with rspReady := y } } = step s)

/-- R31: `txq_valid` pulses exactly in the accept step of a command that passes validation, `tx_abort` exactly in the
timeout step and in a reset step taken in WAIT (R230, R231). That a reset step accepts no command and is no timeout step is
the model's reading (log entry 7). -/
def Obligations.PulsesMarkIssueAndAbort : Prop :=
  ∀ s t : State, step s = .next t →
    (t.txqValid = true ↔ accepts s = true ∧ passes s.inp.cmd = true) ∧
    (t.txAbort = true ↔ timesOut s = true ∨ (s.inp.rst = true ∧ s.ph = .wait))

/-- R30, R31, R63: without a reset, the commands pending after a step are those pending before, plus the one accepted, less
the one delivered; so one response follows each command and none comes without one. -/
def Obligations.OneResponsePerCommand : Prop :=
  ∀ s t : State, s.inp.rst = false → step s = .next t →
    pendingCommands t + (delivers s).toNat = pendingCommands s + (accepts s).toNat

/-- R121, R123: while the bus engine completes only open transactions, every completion uses up one request. -/
def Obligations.EveryCompletionAnswersOneRequest : Prop :=
  ∀ s t : State, engineKeepsToRequests s → step s = .next t →
    openTransactions t + s.inp.txcValid.toNat ≤ openTransactions s + t.txqValid.toNat

/-- R52: the register multiplexer, by the value of `FSEL`. -/
def Obligations.MultiplexerSendsTheFieldsAddress : Prop :=
  ∀ (s : State) (cw : CommandWord), s.ph = .idle → passes cw = true →
    ∃ t, exec (decode cw) s = .next t ∧ t.txqValid = true ∧
      t.txq.b0.toNat = (if cw.toNat / 2 ^ 21 = 0 then 0 else cw.toNat / 2 ^ 21 + 2)

/-- R50, R53: a request names device 0x68 and one of the eight registers, never another address. -/
def Obligations.OnlyTheEightRegistersAreAddressed : Prop :=
  ∀ s t : State, step s = .next t → t.txqValid = true →
    t.txq.dev = 0x68 ∧
    t.txq.b0 ∈ [0x00#8, 0x03#8, 0x04#8, 0x05#8, 0x06#8, 0x07#8, 0x08#8, 0x09#8] ∧
    ¬ (0x0A ≤ t.txq.b0.toNat ∧ t.txq.b0.toNat ≤ 0x13) ∧ t.txq.b0 ≠ 0x01 ∧ t.txq.b0 ≠ 0x02 ∧ t.txq.b0.toNat < 0x14

/-- R60: a set is a plain write of a byte formed from its command word alone, with every bit that the field does not
name 0. -/
def Obligations.SetsWriteUnnamedBitsAsZero : Prop :=
  ∀ s t : State, step s = .next t → t.txqValid = true → isGet (decode s.inp.cmd) = false →
    t.txq.kind = .writeOnly ∧ t.txq = formTxq s.inp.cmd ∧ t.txq.b1 &&& unnamedBits t.txq.b0.toNat = 0

/-- R59: what the outcome of a transaction does to the register file, byte by byte, in a step in which the peripheral
changes nothing of its own. After a failure every register holds a free byte, of contents drawn anew, the model's form of
U1 (log entry 6). That the byte is stored in the completion step, and that a success changes no other register, are the
model's choices (log entries 14, 17). -/
def Obligations.OutcomeDecidesTheRegisterFile : Prop :=
  ∀ s t : State, Inv s → s.inp.rst = false → s.inp.own = [] → s.ph = .wait → s.inp.txcValid = true → step s = .next t →
    ((completion s).status = .ok → isGet (decode s.cmd) = false →
      ∀ a, memRead t.per a = if a = s.txq.b0.toNat then s.txq.b1 else memRead s.per a) ∧
    ((completion s).status = .ok → isGet (decode s.cmd) = true → ∀ a, memRead t.per a = memRead s.per a) ∧
    ((completion s).status = .invalidArg → ∀ a, memRead t.per a = memRead s.per a) ∧
    ((completion s).status = .fail ∨ (completion s).status = .other →
      s.per.base < t.per.base ∧ ∀ a, memRead t.per a = Config.freeByte t.per.base a)

/-! ### Frames -/

/-- What accepting a command leaves unchanged, for all sixteen: the register file and the inputs; `CMD` takes the word;
an issued transaction leaves `RSP`, a refusal leaves `TXQ` and `tmr`. That an issued write stores nothing yet is the
model's choice (log entry 14). -/
def Obligations.AcceptanceFrame : Prop :=
  ∀ (i : Instr) (s t : State), s.ph = .idle → exec i s = .next t →
    (∀ a, memRead t.per a = memRead s.per a) ∧ t.cmd = s.inp.cmd ∧ t.txAbort = false ∧
    t.inp = s.inp ∧ t.upcoming = s.upcoming ∧ t.draw = s.draw ∧
    ((t.ph = .wait ∧ t.rsp = s.rsp ∧ t.tmr = 0 ∧ t.txqValid = true) ∨
     (t.ph = .resp ∧ t.txq = s.txq ∧ t.tmr = s.tmr ∧ t.txqValid = false))

/-- What a get in flight leaves unchanged: `CMD`, `TXQ`, the inputs, and the whole register file unless the transaction
fails or times out. That a read changes no register is the model's choice (log entry 17). -/
def Obligations.GetFrame : Prop :=
  ∀ (i : Instr) (s t : State), isGet i = true → s.ph = .wait → s.txq.kind = .writeThenRead → exec i s = .next t →
    t.cmd = s.cmd ∧ t.txq = s.txq ∧ t.txqValid = false ∧ t.inp = s.inp ∧ t.upcoming = s.upcoming ∧ t.draw = s.draw ∧
    (t.rsp.result ≠ .commFailure ∨ t.ph = .wait → ∀ a, memRead t.per a = memRead s.per a) ∧
    (s.inp.txcValid = true → t.tmr = s.tmr) ∧ (t.ph = .wait → t.rsp = s.rsp)

/-- What a set in flight leaves unchanged: `CMD`, `TXQ`, the inputs, and every register outside the one its transaction
names, which holds the data byte after a success; nothing is stored before the completion (log entry 14),
and no other register changes (log entry 17), by the model's choice. -/
def Obligations.SetFrame : Prop :=
  ∀ (i : Instr) (s t : State), isGet i = false → s.ph = .wait → s.txq.kind = .writeOnly → exec i s = .next t →
    t.cmd = s.cmd ∧ t.txq = s.txq ∧ t.txqValid = false ∧ t.inp = s.inp ∧ t.upcoming = s.upcoming ∧ t.draw = s.draw ∧
    (t.rsp.result ≠ .commFailure ∨ t.ph = .wait → ∀ a, a ≠ s.txq.b0.toNat → memRead t.per a = memRead s.per a) ∧
    (t.ph = .resp → t.rsp.result = .success → memRead t.per s.txq.b0.toNat = s.txq.b1) ∧
    (t.ph = .wait ∨ (t.ph = .resp ∧ t.rsp.result = .invalidParam) →
      memRead t.per s.txq.b0.toNat = memRead s.per s.txq.b0.toNat) ∧
    (s.inp.txcValid = true → t.tmr = s.tmr) ∧ (t.ph = .wait → t.rsp = s.rsp)

/-- What delivering a response leaves unchanged, for all sixteen: every latch but `ph`, the register file, the inputs. -/
def Obligations.DeliveryFrame : Prop :=
  ∀ (i : Instr) (s t : State), s.ph = .resp → exec i s = .next t →
    t.cmd = s.cmd ∧ t.txq = s.txq ∧ t.tmr = s.tmr ∧ t.rsp = s.rsp ∧ t.txqValid = false ∧ t.txAbort = false ∧
    (∀ a, memRead t.per a = memRead s.per a) ∧ t.inp = s.inp ∧ t.upcoming = s.upcoming ∧ t.draw = s.draw ∧
    t.ph = (if s.inp.rspReady then .idle else .resp)

/-! ### Results -/

/-- R204: which command can end with which result. Refused at once: only the seven validated sets, with `InvalidParam`.
Every command in flight can end with each of the three. -/
def Obligations.ResultsEachCommandCanEndWith : Prop :=
  (∀ (i : Instr) (s t : State), s.ph = .idle → exec i s = .next t → t.ph = .resp →
    t.rsp = ⟨.invalidParam, none⟩ ∧
      ((∃ v, i = .setSeconds v) ∨ (∃ v, i = .setMinutes v) ∨ (∃ m a x y, i = .setHours m a x y) ∨ (∃ v, i = .setDay v) ∨
        (∃ v, i = .setWeekday v) ∨ (∃ v, i = .setMonth v) ∨ (∃ v, i = .setYear v))) ∧
  (∀ (i : Instr) (s : State) (r : Result), s.ph = .wait → ∃ (x : Inputs) (t : State),
    exec i { s with inp := x } = .next t ∧ t.ph = .resp ∧ t.rsp.result = r)

/-- R83, R84, R143: a command in flight that ends has its payload present exactly on the success of a get, in that get's
shape, within what its decoder can produce. -/
def Obligations.PayloadsHaveTheirShapesAndBounds : Prop :=
  ∀ (i : Instr) (s t : State), s.ph = .wait → exec i s = .next t → t.ph = .resp → responseFits i t.rsp

/-! ### The codecs -/

/-- R145: for every field and every value its validator accepts, decoding the encoded byte gives the value, and the tens
digit is not masked; a byte comes back from a decoding only if it has no bit above the tens group, a decimal units
digit, and a decoded tens digit that fits. -/
def Obligations.BcdRoundTrip : Prop :=
  (∀ v ≤ 59, bcdDecode (bcdByte v 3) 3 = v ∧ bcdEncode v 3 = 16 * (v / 10) + v % 10) ∧
  (∀ v ≤ 31, bcdDecode (bcdByte v 2) 2 = v ∧ bcdEncode v 2 = 16 * (v / 10) + v % 10) ∧
  (∀ v ≤ 12, bcdDecode (bcdByte v 1) 1 = v ∧ bcdEncode v 1 = 16 * (v / 10) + v % 10) ∧
  (∀ v ≤ 99, bcdDecode (bcdByte v 4) 4 = v ∧ bcdEncode v 4 = 16 * (v / 10) + v % 10) ∧
  (∀ (b : Byte), ∀ w ∈ [1, 2, 3, 4], bcdEncode (bcdDecode b w) w = b.toNat →
    b.toNat < 16 * 2 ^ w ∧ b.toNat % 16 ≤ 9 ∧ bcdDecode b w / 10 < 2 ^ w)

/-- R172: the byte as the spec's sum of bits, and the two laws. -/
def Obligations.ControlCodecLaws : Prop :=
  (∀ cap stop sr mode sie aie cie : Bool, (ctlEncode ⟨cap, stop, sr, mode, sie, aie, cie⟩).toNat =
    128 * cap.toNat + 32 * stop.toNat + 16 * sr.toNat + 8 * mode.toNat + 4 * sie.toNat + 2 * aie.toNat + cie.toNat) ∧
  (∀ cs : ControlState, ctlDecode (ctlEncode cs) = cs) ∧ (∀ b : Byte, ctlEncode (ctlDecode b) = b &&& 0xBF)

/-- R175, R177: the laws of the hours and weekday codecs for valid operands. -/
def Obligations.HoursAndWeekdayCodecLaws : Prop :=
  (∀ (a : Bool) (x : Nat), ∀ h ≤ 23, ∃ p q, hoursDecode (hoursEncode .mode24 a x h) = .hours p q (BitVec.ofNat 8 h)) ∧
  (∀ (a : Bool) (x : Nat), ∀ h, 1 ≤ h → h ≤ 12 →
    ∃ q, hoursDecode (hoursEncode .mode12 a h x) = .hours a (BitVec.ofNat 8 h) q) ∧
  (∀ v ≤ 6, wdEncode v = BitVec.ofNat 8 v ∧ wdDecode (wdEncode v) = BitVec.ofNat 8 v)

/-! ### Runs -/

/-- R110: the whole pipeline of an accepted word. From IDLE, the word is presented, fewer than a hundred ticks pass, the
bus engine completes: the block then holds the response that the completion gives to the word, and taking it returns to
IDLE. What the register file then holds rests on the model's choices (log entries 6, 14, 17). -/
def Obligations.AcceptedCommandAnswersItsCompletion : Prop :=
  ∀ (s : State) (cw : CommandWord) (k : Nat) (c : Completion) (rest : List Inputs),
    s.ph = .idle → passes cw = true → k ≤ 99 → s.inp = commandSample cw →
    s.upcoming = List.replicate k tickSample ++ completionSample c :: { quietInputs with rspReady := true } :: rest →
    ∃ t u, runSteps (k + 2) s = .next t ∧ t.ph = .resp ∧ t.cmd = cw ∧ t.rsp = responseTo cw c ∧
      t.tmr.toNat = k ∧
      t.per = peripheralAfter (formTxq cw) c.status (s.draw + k + 1) s.per ∧
      runSteps (k + 3) s = .next u ∧ u.ph = .idle ∧ u.rsp = t.rsp ∧ u.per = t.per

/-- R116, R124: from WAIT, with a tick in each of the next hundred samples and no reset, the block leaves WAIT within a
hundred steps, whatever else the outside does. -/
def Obligations.HundredTicksEndTheWait : Prop :=
  ∀ s : State, Inv s → s.ph = .wait → 99 ≤ s.upcoming.length →
    (∀ x ∈ (samples s).take 100, x.tick = true ∧ x.rst = false) →
    ∃ k t, 1 ≤ k ∧ k ≤ 100 ∧ runSteps k s = .next t ∧ t.ph = .resp

/-- R124: with neither a completion nor a tick nor a reset, the block stays in WAIT for as long as the samples last. -/
def Obligations.WaitHangsWithoutTicks : Prop :=
  ∀ (n : Nat) (s : State), s.ph = .wait → n ≤ s.upcoming.length + 1 →
    (∀ x ∈ (samples s).take n, x.tick = false ∧ x.txcValid = false ∧ x.rst = false) →
    ∃ t, runSteps n s = .next t ∧ t.ph = .wait ∧ t.cmd = s.cmd ∧ t.txq = s.txq ∧ t.tmr = s.tmr

/-- R124: dropping the counter, every step of the block is a step of the block with no time, for some choice of the
environment. Both draw new free bytes for the register file at the timeout (log entry 6). -/
def Obligations.TimedBlockRefinesFreeTimeout : Prop :=
  ∀ s t : State, Inv s → step s = .next t →
    ∃ force t', freeTimeoutStep force (untimed s) = .next t' ∧ untimed t' = untimed t

/-- R26: two blocks in IDLE that are shown the same inputs show the same outputs after any number of steps, whatever each
did before: no earlier command, register byte, mode or error is remembered. -/
def Obligations.OutputsForgetEarlierCommands : Prop :=
  ∀ (n : Nat) (s s' : State), s.ph = .idle → s'.ph = .idle → samples s = samples s' → 1 ≤ n → n ≤ s.upcoming.length + 1 →
    ∀ t, runSteps n s = .next t →
      ∃ t', runSteps n s' = .next t' ∧ outputs t' = outputs t

/-- R145, R172, R175, R177 through the whole machine, for all eight fields: against the ideal register file of
95_test_vectors.md, a set of a valid value followed by a get of the same field answers `Success` with that value; for the
hours, in the reading of the mode they were set in. -/
def Obligations.SetThenGetThroughTheRegisterFile : Prop :=
  (∀ cs, ReadsBack (.setControl cs) .getControl (· = .flags cs)) ∧
  (∀ v ≤ 59, ReadsBack (.setSeconds v) .getSeconds (· = .value (BitVec.ofNat 8 v))) ∧
  (∀ v ≤ 59, ReadsBack (.setMinutes v) .getMinutes (· = .value (BitVec.ofNat 8 v))) ∧
  (∀ (ampm : Bool) (h12 : Nat), ∀ h ≤ 23, ReadsBack (.setHours .mode24 ampm h12 h) .getHours
    (fun p => ∃ a x, p = .hours a x (BitVec.ofNat 8 h))) ∧
  (∀ (ampm : Bool) (h24 : Nat), ∀ h, 1 ≤ h → h ≤ 12 → ReadsBack (.setHours .mode12 ampm h h24) .getHours
    (fun p => ∃ x, p = .hours ampm (BitVec.ofNat 8 h) x)) ∧
  (∀ v, 1 ≤ v → v ≤ 31 → ReadsBack (.setDay v) .getDay (· = .value (BitVec.ofNat 8 v))) ∧
  (∀ v ≤ 6, ReadsBack (.setWeekday v) .getWeekday (· = .value (BitVec.ofNat 8 v))) ∧
  (∀ v, 1 ≤ v → v ≤ 12 → ReadsBack (.setMonth v) .getMonth (· = .value (BitVec.ofNat 8 v))) ∧
  (∀ v, 1 ≤ v → v ≤ 99 → ReadsBack (.setYear v) .getYear (· = .value (BitVec.ofNat 8 v)))
end

