-- ==== Sys2Proof/Laws/Bits.lean ====
section
/-! SUPPORT. The bits of a word put together from fields, and the port records read back from their bits. -/

namespace Sys2Proof

@[simp] theorem getLsbD_putField (n k : Nat) {m : Nat} (x : BitVec m) (j : Nat) :
    (putField n k x).getLsbD j = (decide (j < n) && !decide (j < k) && x.getLsbD (j - k)) := by
  simp only [putField, BitVec.getLsbD_shiftLeft, BitVec.getLsbD_setWidth]
  by_cases h : j < n
  · simp [h, show j - k < n by omega]
  · simp [h]

@[simp] theorem getLsbD_putBit (n k : Nat) (b : Bool) (j : Nat) :
    (putBit n k b).getLsbD j = (decide (j < n) && decide (j = k) && b) := by
  simp only [putBit, getLsbD_putField]
  by_cases h : j = k
  · subst h; simp
  · by_cases hk : j < k
    · simp [h, hk]
    · simp [h, hk, show j - k ≠ 0 by omega]

@[simp] theorem getElem_putField (n k : Nat) {m : Nat} (x : BitVec m) (j : Nat) (h : j < n) :
    (putField n k x)[j] = (!decide (j < k) && x.getLsbD (j - k)) := by
  rw [← BitVec.getLsbD_eq_getElem]; simp [h, -BitVec.getLsbD_eq_getElem]

@[simp] theorem getElem_putBit (n k : Nat) (b : Bool) (j : Nat) (h : j < n) :
    (putBit n k b)[j] = (decide (j = k) && b) := by
  rw [← BitVec.getLsbD_eq_getElem]; simp [h, -BitVec.getLsbD_eq_getElem]

/-- The flags of a vector put together from flags (30_encoding.md R82). -/
theorem flagsOfBits_flagsToBits (c : ControlState) : flagsOfBits (flagsToBits c) = c := by
  simp [flagsOfBits, flagsToBits]

namespace Machine

/-- The completion port reads back what was packed onto it (30_encoding.md R87). -/
theorem unpackCompletion_packCompletion (c : Completion) : unpackCompletion (packCompletion c) = c := by
  obtain ⟨st, rx⟩ := c
  have hrx : (packCompletion ⟨st, rx⟩).extractLsb' 0 8 = rx := by
    apply BitVec.eq_of_getLsbD_eq
    intro k hk
    simp [packCompletion, hk, show k < 10 by omega]
  have hst : statusOfBits ((packCompletion ⟨st, rx⟩).getLsbD 9) ((packCompletion ⟨st, rx⟩).getLsbD 8) = st := by
    cases st <;> simp [packCompletion, statusCode, statusOfBits]
  simp only [unpackCompletion, hrx, hst]

end Machine

end Sys2Proof
end

