-- ==== Sys2Proof/Laws/Memory.lean ====
section
/-! SUPPORT. The laws of the peripheral's register file: a read after a write, and that every operation keeps the canonical
form. -/

namespace Sys2Proof.Machine

@[simp] theorem listedByte_nil (a : Nat) : listedByte [] a = none := rfl

theorem listedByte_cons (c : Host.Cell) (m : Memory) (a : Nat) :
    listedByte (c :: m) a = if c.1 = a then some c.2 else listedByte m a := rfl

/-- The address listed anew has the new byte; every other address has what it had. -/
theorem listedByte_listByte (m : Memory) (a : Nat) (v : Byte) (b : Nat) :
    listedByte (listByte m a v) b = if b = a then some v else listedByte m b := by
  by_cases h : b = a
  · subst h
    induction m with
    | nil => simp [listByte, listedByte_cons]
    | cons c m ih =>
      unfold listByte
      split
      · simp [listedByte_cons]
      · split
        · simp [listedByte_cons]
        · simp_all [listedByte_cons]
  · induction m with
    | nil => simp [listByte, listedByte_cons, h, Ne.symm h]
    | cons c m ih =>
      unfold listByte
      split
      · simp [listedByte_cons, Ne.symm h]
      · split
        · next hc => simp [listedByte_cons, Ne.symm h, hc]
        · simp [listedByte_cons, h, ih]

/-! ### Reading and writing a register -/

/-- The register written reads as the byte written; every other register reads as before. -/
theorem memRead_memWrite (f : RegFile) (a : Nat) (v : Byte) (b : Nat) :
    memRead (memWrite f a v) b = if b = a then v else memRead f b := by
  by_cases h : b = a <;> simp [memRead, memWrite, listedByte_listByte, h]

@[simp] theorem memRead_memWrite_self (f : RegFile) (a : Nat) (v : Byte) : memRead (memWrite f a v) a = v := by
  simp [memRead_memWrite]

theorem memRead_memWrite_of_ne (f : RegFile) {a b : Nat} (v : Byte) (h : b ≠ a) :
    memRead (memWrite f a v) b = memRead f b := by
  simp [memRead_memWrite, h]

/-- After a failure every register holds a free byte. -/
@[simp] theorem memRead_memForget (n a : Nat) : memRead (memForget n) a = Config.freeByte (n + 1) a := rfl

/-- After reset every register holds a free byte (10_state.md R34 to R41, R44, U9). -/
@[simp] theorem memRead_reset (a : Nat) : memRead State.reset.per a = Config.freeByte 0 a := rfl

/-! ### Which free contents a file is over -/

@[simp] theorem memWrite_base (f : RegFile) (a : Nat) (v : Byte) : (memWrite f a v).base = f.base := rfl

@[simp] theorem memForget_base (n : Nat) : (memForget n).base = n + 1 := rfl

@[simp] theorem ownChanges_base (own : List (Byte × Byte)) (f : RegFile) : (ownChanges own f).base = f.base := by
  induction own generalizing f with
  | nil => rfl
  | cons p own ih => exact ih _

/-- A completion keeps the contents, or draws new ones. -/
theorem peripheralAfter_base (t : Txq) (st : TxStatus) (n : Nat) (f : RegFile) :
    (peripheralAfter t st n f).base = f.base ∨ (peripheralAfter t st n f).base = n + 1 := by
  cases st with
  | ok => cases hk : t.kind <;> simp [peripheralAfter, hk]
  | invalidArg => exact .inl rfl
  | fail => exact .inr rfl
  | other => exact .inr rfl

/-! ### The canonical form -/

theorem nil_wf : Memory.wf [] := by simp [Memory.wf]

theorem memForget_wf (n : Nat) : Memory.wf (memForget n).known := nil_wf

/-- Every cell after a write was there before or is the one written. -/
theorem mem_listByte {m : Memory} {a : Nat} {v : Byte} {c : Host.Cell} (h : c ∈ listByte m a v) :
    c = (a, v) ∨ c ∈ m := by
  induction m with
  | nil => simpa [listByte] using h
  | cons d m ih =>
    unfold listByte at h
    split at h
    · simpa using h
    · split at h
      · rcases List.mem_cons.1 h with h | h
        · exact .inl h
        · exact .inr (List.mem_cons_of_mem _ h)
      · rcases List.mem_cons.1 h with h | h
        · exact .inr (h ▸ List.mem_cons_self)
        · exact (ih h).imp id (List.mem_cons_of_mem _)

theorem listByte_pairwise {m : Memory} (a : Nat) (v : Byte) (h : m.Pairwise (fun c d => c.1 < d.1)) :
    (listByte m a v).Pairwise (fun c d => c.1 < d.1) := by
  induction m with
  | nil => simp [listByte]
  | cons d m ih =>
    obtain ⟨hd, hm⟩ := List.pairwise_cons.1 h
    unfold listByte
    split
    · refine List.pairwise_cons.2 ⟨fun c hc => ?_, h⟩
      rcases List.mem_cons.1 hc with rfl | hc
      · assumption
      · exact lt_trans ‹_› (hd c hc)
    · split
      · rename_i heq
        exact List.pairwise_cons.2 ⟨fun c hc => heq ▸ hd c hc, hm⟩
      · refine List.pairwise_cons.2 ⟨fun c hc => ?_, ih hm⟩
        rcases mem_listByte hc with rfl | hc
        · simp only; omega
        · exact hd c hc

theorem listByte_wf {m : Memory} {a : Nat} (v : Byte) (h : Memory.wf m) (ha : a < 256) :
    Memory.wf (listByte m a v) :=
  ⟨listByte_pairwise a v h.1, fun c hc => by
    rcases mem_listByte hc with rfl | hc
    · exact ha
    · exact h.2 c hc⟩

theorem memWrite_wf {f : RegFile} {a : Nat} (v : Byte) (h : Memory.wf f.known) (ha : a < 256) :
    Memory.wf (memWrite f a v).known := listByte_wf v h ha

theorem ownChanges_wf (own : List (Byte × Byte)) {f : RegFile} (h : Memory.wf f.known) :
    Memory.wf (ownChanges own f).known := by
  induction own generalizing f with
  | nil => exact h
  | cons p own ih => exact ih (memWrite_wf p.2 h p.1.isLt)

theorem peripheralAfter_wf (t : Txq) (st : TxStatus) (n : Nat) {f : RegFile} (h : Memory.wf f.known) :
    Memory.wf (peripheralAfter t st n f).known := by
  cases st with
  | ok =>
    cases hk : t.kind with
    | writeOnly => simpa [peripheralAfter, hk] using memWrite_wf t.b1 h t.b0.isLt
    | writeThenRead => simpa [peripheralAfter, hk] using h
  | invalidArg => exact h
  | fail => exact memForget_wf n
  | other => exact memForget_wf n

theorem reset_file_wf : Memory.wf State.reset.per.known := nil_wf

end Sys2Proof.Machine
end

