-- ==== Sys2Proof/Laws/State.lean ====
section
/-! SUPPORT. One lemma per field and shared update of the state, true by definition, so that no proof unfolds a record
update again. -/

namespace Sys2Proof.Machine

@[simp] theorem clearPulses_ph (s : State) : (clearPulses s).ph = s.ph := rfl
@[simp] theorem clearPulses_cmd (s : State) : (clearPulses s).cmd = s.cmd := rfl
@[simp] theorem clearPulses_txq (s : State) : (clearPulses s).txq = s.txq := rfl
@[simp] theorem clearPulses_tmr (s : State) : (clearPulses s).tmr = s.tmr := rfl
@[simp] theorem clearPulses_rsp (s : State) : (clearPulses s).rsp = s.rsp := rfl
@[simp] theorem clearPulses_txqValid (s : State) : (clearPulses s).txqValid = false := rfl
@[simp] theorem clearPulses_txAbort (s : State) : (clearPulses s).txAbort = false := rfl
@[simp] theorem clearPulses_inp (s : State) : (clearPulses s).inp = s.inp := rfl
@[simp] theorem clearPulses_upcoming (s : State) : (clearPulses s).upcoming = s.upcoming := rfl
@[simp] theorem clearPulses_draw (s : State) : (clearPulses s).draw = s.draw := rfl
@[simp] theorem clearPulses_per (s : State) : (clearPulses s).per = s.per := rfl

@[simp] theorem respond_ph (r : Result) (p : Option Payload) (s : State) : (respond r p s).ph = .resp := rfl
@[simp] theorem respond_cmd (r : Result) (p : Option Payload) (s : State) : (respond r p s).cmd = s.cmd := rfl
@[simp] theorem respond_txq (r : Result) (p : Option Payload) (s : State) : (respond r p s).txq = s.txq := rfl
@[simp] theorem respond_tmr (r : Result) (p : Option Payload) (s : State) : (respond r p s).tmr = s.tmr := rfl
@[simp] theorem respond_rsp (r : Result) (p : Option Payload) (s : State) : (respond r p s).rsp = ⟨r, p⟩ := rfl
@[simp] theorem respond_txqValid (r : Result) (p : Option Payload) (s : State) : (respond r p s).txqValid = s.txqValid := rfl
@[simp] theorem respond_txAbort (r : Result) (p : Option Payload) (s : State) : (respond r p s).txAbort = s.txAbort := rfl
@[simp] theorem respond_inp (r : Result) (p : Option Payload) (s : State) : (respond r p s).inp = s.inp := rfl
@[simp] theorem respond_upcoming (r : Result) (p : Option Payload) (s : State) : (respond r p s).upcoming = s.upcoming := rfl
@[simp] theorem respond_draw (r : Result) (p : Option Payload) (s : State) : (respond r p s).draw = s.draw := rfl
@[simp] theorem respond_per (r : Result) (p : Option Payload) (s : State) : (respond r p s).per = s.per := rfl

@[simp] theorem raise_ph (e : Result) (s : State) : (raise e s).ph = .resp := rfl
@[simp] theorem raise_cmd (e : Result) (s : State) : (raise e s).cmd = s.cmd := rfl
@[simp] theorem raise_txq (e : Result) (s : State) : (raise e s).txq = s.txq := rfl
@[simp] theorem raise_tmr (e : Result) (s : State) : (raise e s).tmr = s.tmr := rfl
@[simp] theorem raise_rsp (e : Result) (s : State) : (raise e s).rsp = ⟨e, none⟩ := rfl
@[simp] theorem raise_txqValid (e : Result) (s : State) : (raise e s).txqValid = s.txqValid := rfl
@[simp] theorem raise_txAbort (e : Result) (s : State) : (raise e s).txAbort = s.txAbort := rfl
@[simp] theorem raise_inp (e : Result) (s : State) : (raise e s).inp = s.inp := rfl
@[simp] theorem raise_upcoming (e : Result) (s : State) : (raise e s).upcoming = s.upcoming := rfl
@[simp] theorem raise_draw (e : Result) (s : State) : (raise e s).draw = s.draw := rfl
@[simp] theorem raise_per (e : Result) (s : State) : (raise e s).per = s.per := rfl

@[simp] theorem latchCommand_ph (s : State) : (latchCommand s).ph = s.ph := rfl
@[simp] theorem latchCommand_cmd (s : State) : (latchCommand s).cmd = s.inp.cmd := rfl
@[simp] theorem latchCommand_txq (s : State) : (latchCommand s).txq = s.txq := rfl
@[simp] theorem latchCommand_tmr (s : State) : (latchCommand s).tmr = s.tmr := rfl
@[simp] theorem latchCommand_rsp (s : State) : (latchCommand s).rsp = s.rsp := rfl
@[simp] theorem latchCommand_txqValid (s : State) : (latchCommand s).txqValid = false := rfl
@[simp] theorem latchCommand_txAbort (s : State) : (latchCommand s).txAbort = false := rfl
@[simp] theorem latchCommand_inp (s : State) : (latchCommand s).inp = s.inp := rfl
@[simp] theorem latchCommand_upcoming (s : State) : (latchCommand s).upcoming = s.upcoming := rfl
@[simp] theorem latchCommand_draw (s : State) : (latchCommand s).draw = s.draw := rfl
@[simp] theorem latchCommand_per (s : State) : (latchCommand s).per = s.per := rfl

@[simp] theorem issue_ph (t : Txq) (s : State) : (issue t s).ph = .wait := rfl
@[simp] theorem issue_cmd (t : Txq) (s : State) : (issue t s).cmd = s.cmd := rfl
@[simp] theorem issue_txq (t : Txq) (s : State) : (issue t s).txq = t := rfl
@[simp] theorem issue_tmr (t : Txq) (s : State) : (issue t s).tmr = 0 := rfl
@[simp] theorem issue_rsp (t : Txq) (s : State) : (issue t s).rsp = s.rsp := rfl
@[simp] theorem issue_txqValid (t : Txq) (s : State) : (issue t s).txqValid = true := rfl
@[simp] theorem issue_txAbort (t : Txq) (s : State) : (issue t s).txAbort = s.txAbort := rfl
@[simp] theorem issue_inp (t : Txq) (s : State) : (issue t s).inp = s.inp := rfl
@[simp] theorem issue_upcoming (t : Txq) (s : State) : (issue t s).upcoming = s.upcoming := rfl
@[simp] theorem issue_draw (t : Txq) (s : State) : (issue t s).draw = s.draw := rfl
@[simp] theorem issue_per (t : Txq) (s : State) : (issue t s).per = s.per := rfl

@[simp] theorem timeOut_ph (s : State) : (timeOut s).ph = .resp := rfl
@[simp] theorem timeOut_cmd (s : State) : (timeOut s).cmd = s.cmd := rfl
@[simp] theorem timeOut_txq (s : State) : (timeOut s).txq = s.txq := rfl
@[simp] theorem timeOut_tmr (s : State) : (timeOut s).tmr = BitVec.ofNat 7 Config.timeout := rfl
@[simp] theorem timeOut_rsp (s : State) : (timeOut s).rsp = ⟨.commFailure, none⟩ := rfl
@[simp] theorem timeOut_txqValid (s : State) : (timeOut s).txqValid = false := rfl
@[simp] theorem timeOut_txAbort (s : State) : (timeOut s).txAbort = true := rfl
@[simp] theorem timeOut_inp (s : State) : (timeOut s).inp = s.inp := rfl
@[simp] theorem timeOut_upcoming (s : State) : (timeOut s).upcoming = s.upcoming := rfl
@[simp] theorem timeOut_draw (s : State) : (timeOut s).draw = s.draw := rfl
@[simp] theorem timeOut_per (s : State) : (timeOut s).per = memForget s.draw := rfl

@[simp] theorem resetBlock_ph (s : State) : (resetBlock s).ph = .idle := rfl
@[simp] theorem resetBlock_cmd (s : State) : (resetBlock s).cmd = Config.freeCmd s.draw := rfl
@[simp] theorem resetBlock_txq (s : State) : (resetBlock s).txq = Config.freeTxq s.draw := rfl
@[simp] theorem resetBlock_tmr (s : State) : (resetBlock s).tmr = 0 := rfl
@[simp] theorem resetBlock_rsp (s : State) : (resetBlock s).rsp = Config.freeRsp s.draw := rfl
@[simp] theorem resetBlock_txqValid (s : State) : (resetBlock s).txqValid = false := rfl
@[simp] theorem resetBlock_txAbort (s : State) : (resetBlock s).txAbort = (decide (s.ph = .wait)) := rfl
@[simp] theorem resetBlock_inp (s : State) : (resetBlock s).inp = s.inp := rfl
@[simp] theorem resetBlock_upcoming (s : State) : (resetBlock s).upcoming = s.upcoming := rfl
@[simp] theorem resetBlock_draw (s : State) : (resetBlock s).draw = s.draw := rfl
@[simp] theorem resetBlock_per (s : State) : (resetBlock s).per = if s.ph = .wait then memForget s.draw else s.per := rfl

@[simp] theorem advance_ph (s : State) : (advance s).ph = s.ph := rfl
@[simp] theorem advance_cmd (s : State) : (advance s).cmd = s.cmd := rfl
@[simp] theorem advance_txq (s : State) : (advance s).txq = s.txq := rfl
@[simp] theorem advance_tmr (s : State) : (advance s).tmr = s.tmr := rfl
@[simp] theorem advance_rsp (s : State) : (advance s).rsp = s.rsp := rfl
@[simp] theorem advance_txqValid (s : State) : (advance s).txqValid = s.txqValid := rfl
@[simp] theorem advance_txAbort (s : State) : (advance s).txAbort = s.txAbort := rfl
@[simp] theorem advance_inp (s : State) : (advance s).inp = s.upcoming.headD (Config.freeInputs s.draw) := rfl
@[simp] theorem advance_upcoming (s : State) : (advance s).upcoming = s.upcoming.tail := rfl
@[simp] theorem advance_draw (s : State) : (advance s).draw = s.draw + 1 := rfl
@[simp] theorem advance_per (s : State) : (advance s).per = ownChanges s.inp.own s.per := rfl

@[simp] theorem presentCommand_ph (cw : CommandWord) (s : State) : (presentCommand cw s).ph = .idle := rfl
@[simp] theorem presentCommand_cmd (cw : CommandWord) (s : State) : (presentCommand cw s).cmd = s.cmd := rfl
@[simp] theorem presentCommand_txq (cw : CommandWord) (s : State) : (presentCommand cw s).txq = s.txq := rfl
@[simp] theorem presentCommand_tmr (cw : CommandWord) (s : State) : (presentCommand cw s).tmr = s.tmr := rfl
@[simp] theorem presentCommand_rsp (cw : CommandWord) (s : State) : (presentCommand cw s).rsp = s.rsp := rfl
@[simp] theorem presentCommand_txqValid (cw : CommandWord) (s : State) : (presentCommand cw s).txqValid = s.txqValid := rfl
@[simp] theorem presentCommand_txAbort (cw : CommandWord) (s : State) : (presentCommand cw s).txAbort = s.txAbort := rfl
@[simp] theorem presentCommand_inp (cw : CommandWord) (s : State) : (presentCommand cw s).inp = { quietInputs with cmdValid := true, cmd := cw } := rfl
@[simp] theorem presentCommand_upcoming (cw : CommandWord) (s : State) : (presentCommand cw s).upcoming = s.inp :: s.upcoming := rfl
@[simp] theorem presentCommand_draw (cw : CommandWord) (s : State) : (presentCommand cw s).draw = s.draw := rfl
@[simp] theorem presentCommand_per (cw : CommandWord) (s : State) : (presentCommand cw s).per = s.per := rfl

end Sys2Proof.Machine
end

