-- ==== Sys2Proof/Laws/Ops.lean ====
section
/-! SUPPORT. Once for each shared operation, everything it can do; the lemmas a proof cites in place of unfolding the
operation. -/

namespace Sys2Proof.Machine

/-! ### Accepting -/

theorem accept_valid (t : Txq) (s : State) : accept true t s = issue t (latchCommand s) := rfl

theorem accept_invalid (t : Txq) (s : State) : accept false t s = raise .invalidParam (latchCommand s) := rfl

/-! ### Completing -/

/-- The completion step in one form: the response by the status, the payload looked at only on a success. -/
theorem complete_eq (payload : Byte → Option Payload) (s : State) :
    complete payload s = respond (classify (completion s).status)
      (if (completion s).status = .ok then payload (completion s).rx else none)
      { clearPulses s with per := peripheralAfter s.txq (completion s).status s.draw s.per } := by
  unfold complete completion
  cases (unpackCompletion s.inp.txc).status <;> rfl

/-! ### Waiting -/

theorem awaitCompletion_completed (payload : Byte → Option Payload) {s : State} (h : s.inp.txcValid = true) :
    awaitCompletion payload s = .next (complete payload s) := by simp [awaitCompletion, h]

theorem awaitCompletion_quiet (payload : Byte → Option Payload) {s : State} (h : s.inp.txcValid = false)
    (ht : s.inp.tick = false) : awaitCompletion payload s = .next (clearPulses s) := by
  simp [awaitCompletion, h, ht]

theorem awaitCompletion_ticked (payload : Byte → Option Payload) {s : State} (h : s.inp.txcValid = false)
    (ht : s.inp.tick = true) (hn : s.tmr.toNat ≤ 98) :
    awaitCompletion payload s = .next { clearPulses s with tmr := s.tmr + 1 } := by
  simp [awaitCompletion, h, ht, countTick, Config.timeout, show s.tmr.toNat < 99 by omega]

theorem awaitCompletion_timeOut (payload : Byte → Option Payload) {s : State} (h : s.inp.txcValid = false)
    (ht : s.inp.tick = true) (hn : s.tmr.toNat = 99) : awaitCompletion payload s = .next (timeOut s) := by
  simp [awaitCompletion, h, ht, countTick, Config.timeout, hn]

theorem awaitCompletion_overrun (payload : Byte → Option Payload) {s : State} (h : s.inp.txcValid = false)
    (ht : s.inp.tick = true) (hn : 100 ≤ s.tmr.toNat) : awaitCompletion payload s = .fault .timerOverrun := by
  simp [awaitCompletion, h, ht, countTick, Config.timeout, show ¬ s.tmr.toNat < 99 by omega,
    show s.tmr.toNat ≠ 99 by omega]

/-- Everything a step in WAIT can do. -/
theorem awaitCompletion_cases {payload : Byte → Option Payload} {s t : State}
    (h : awaitCompletion payload s = .next t) :
    (s.inp.txcValid = true ∧ t = complete payload s) ∨
    (s.inp.txcValid = false ∧ s.inp.tick = true ∧ s.tmr.toNat ≤ 98 ∧ t = { clearPulses s with tmr := s.tmr + 1 }) ∨
    (s.inp.txcValid = false ∧ s.inp.tick = true ∧ s.tmr.toNat = 99 ∧ t = timeOut s) ∨
    (s.inp.txcValid = false ∧ s.inp.tick = false ∧ t = clearPulses s) := by
  cases hv : s.inp.txcValid with
  | true =>
    rw [awaitCompletion_completed payload hv] at h
    exact .inl ⟨rfl, (Host.Outcome.next.inj h).symm⟩
  | false =>
    cases ht : s.inp.tick with
    | false =>
      rw [awaitCompletion_quiet payload hv ht] at h
      exact .inr (.inr (.inr ⟨rfl, rfl, (Host.Outcome.next.inj h).symm⟩))
    | true =>
      rcases Nat.lt_trichotomy s.tmr.toNat 99 with hn | hn | hn
      · rw [awaitCompletion_ticked payload hv ht (by omega)] at h
        exact .inr (.inl ⟨rfl, rfl, by omega, (Host.Outcome.next.inj h).symm⟩)
      · rw [awaitCompletion_timeOut payload hv ht hn] at h
        exact .inr (.inr (.inl ⟨rfl, rfl, hn, (Host.Outcome.next.inj h).symm⟩))
      · rw [awaitCompletion_overrun payload hv ht hn] at h
        cases h

/-! ### One step of a command -/

theorem runCommand_idle (valid : Bool) (t : Txq) (payload : Byte → Option Payload) {s : State} (h : s.ph = .idle) :
    runCommand valid t payload s = .next (accept valid t s) := by simp [runCommand, h]

theorem runCommand_wait (valid : Bool) (t : Txq) (payload : Byte → Option Payload) {s : State} (h : s.ph = .wait) :
    runCommand valid t payload s = awaitCompletion payload s := by simp [runCommand, h]

theorem runCommand_resp (valid : Bool) (t : Txq) (payload : Byte → Option Payload) {s : State} (h : s.ph = .resp) :
    runCommand valid t payload s = .next (deliver s) := by simp [runCommand, h]

theorem deliver_ready {s : State} (h : s.inp.rspReady = true) : deliver s = { clearPulses s with ph := .idle } := by
  simp [deliver, h]

theorem deliver_held {s : State} (h : s.inp.rspReady = false) : deliver s = clearPulses s := by simp [deliver, h]

/-! ### The step -/

theorem step_reset {s : State} (h : s.inp.rst = true) : step s = .next (advance (resetBlock s)) := by
  simp [step, h, advanceNext]

theorem step_noCommand {s : State} (h : s.inp.rst = false) (hn : noCommand s = true) :
    step s = .next (advance (clearPulses s)) := by simp [step, h, hn, advanceNext]

theorem step_exec {s : State} (h : s.inp.rst = false) (hn : noCommand s = false) :
    step s = advanceNext (exec (current s) s) := by simp [step, h, hn]

/-- Everything a step can do: the reset step, a step with nothing to run, or one step of the command in flight. -/
theorem step_cases {s t : State} (h : step s = .next t) :
    (s.inp.rst = true ∧ t = advance (resetBlock s)) ∨
    (s.inp.rst = false ∧ noCommand s = true ∧ t = advance (clearPulses s)) ∨
    (s.inp.rst = false ∧ noCommand s = false ∧ ∃ u, exec (current s) s = .next u ∧ t = advance u) := by
  cases hr : s.inp.rst with
  | true => rw [step_reset hr] at h; exact .inl ⟨rfl, (Host.Outcome.next.inj h).symm⟩
  | false =>
    cases hn : noCommand s with
    | true => rw [step_noCommand hr hn] at h; exact .inr (.inl ⟨rfl, rfl, (Host.Outcome.next.inj h).symm⟩)
    | false =>
      rw [step_exec hr hn] at h
      cases he : exec (current s) s with
      | next u => rw [he] at h; exact .inr (.inr ⟨rfl, rfl, u, rfl, (Host.Outcome.next.inj h).symm⟩)
      | fault e => rw [he] at h; cases h
      | refused r => rw [he] at h; cases h

end Sys2Proof.Machine
end

