-- ==== Sys2Proof/Laws/Commands.lean ====
section
/-! SUPPORT. Each command is a get or a set of its field: the one lemma a proof over all commands splits on; and how
a run begins. -/

namespace Sys2Proof.Machine

/-- Every command runs as a get or as a set, as `isGet` says. -/
theorem exec_shape (i : Instr) :
    (isGet i = true ∧ ∃ f dec, ∀ s, exec i s = runGet f dec s) ∨
    (isGet i = false ∧ ∃ f valid data, ∀ s, exec i s = runSet f valid data s) := by
  cases i
  case getControl => exact .inl ⟨rfl, _, _, fun _ => rfl⟩
  case setControl => exact .inr ⟨rfl, _, _, _, fun _ => rfl⟩
  case getSeconds => exact .inl ⟨rfl, _, _, fun _ => rfl⟩
  case setSeconds => exact .inr ⟨rfl, _, _, _, fun _ => rfl⟩
  case getMinutes => exact .inl ⟨rfl, _, _, fun _ => rfl⟩
  case setMinutes => exact .inr ⟨rfl, _, _, _, fun _ => rfl⟩
  case getHours => exact .inl ⟨rfl, _, _, fun _ => rfl⟩
  case setHours => exact .inr ⟨rfl, _, _, _, fun _ => rfl⟩
  case getDay => exact .inl ⟨rfl, _, _, fun _ => rfl⟩
  case setDay => exact .inr ⟨rfl, _, _, _, fun _ => rfl⟩
  case getWeekday => exact .inl ⟨rfl, _, _, fun _ => rfl⟩
  case setWeekday => exact .inr ⟨rfl, _, _, _, fun _ => rfl⟩
  case getMonth => exact .inl ⟨rfl, _, _, fun _ => rfl⟩
  case setMonth => exact .inr ⟨rfl, _, _, _, fun _ => rfl⟩
  case getYear => exact .inl ⟨rfl, _, _, fun _ => rfl⟩
  case setYear => exact .inr ⟨rfl, _, _, _, fun _ => rfl⟩

/-! ### The test doubles -/

/-- A test double completes every transaction in flight: the command then has its response. RF answers at every register,
for each holds a byte (95_test_vectors.md section 3). -/
theorem doubleCompletes_answers (d : Double) {b : Bench} (h : b.block.ph = .wait) :
    ∃ t, doubleCompletes d b = .next t ∧ t.block.ph = .resp := by
  have hstep : ∀ s : State, s.ph = .wait → s.inp.rst = false → s.inp.txcValid = true →
      ∃ t, step s = .next t ∧ t.ph = .resp := by
    intro s hp hr hv
    rw [step_exec hr (by simp [noCommand, hp])]
    rcases exec_shape (current s) with ⟨-, _, _, he⟩ | ⟨-, _, _, _, he⟩
    · rw [he, runGet, runCommand_wait _ _ _ hp, awaitCompletion_completed _ hv, complete_eq]
      exact ⟨_, rfl, rfl⟩
    · rw [he, runSet, runCommand_wait _ _ _ hp, awaitCompletion_completed _ hv, complete_eq]
      exact ⟨_, rfl, rfl⟩
  obtain ⟨t, ht, hp⟩ := hstep { b.block with inp := { quietInputs with
    txcValid := true, txc := packCompletion (doubleAnswer d b.block.txq b.file).1 } } h rfl rfl
  refine ⟨⟨t, (doubleAnswer d b.block.txq b.file).2⟩, ?_, hp⟩
  unfold doubleCompletes stepWith
  rw [if_pos h, ht]
  rfl

/-! ### Runs -/

@[simp] theorem runSteps_zero (s : State) : runSteps 0 s = .next s := rfl

theorem runSteps_succ (n : Nat) (s : State) : runSteps (n + 1) s = afterNext (step s) (runSteps n) := rfl

theorem runSteps_succ_of_next {n : Nat} {s t : State} (h : step s = .next t) : runSteps (n + 1) s = runSteps n t := by
  rw [runSteps_succ, h]; rfl

theorem afterNext_cases {α β : Type} {o : Host.Outcome α Fault Refusal} {f : α → Host.Outcome β Fault Refusal} {b : β}
    (h : afterNext o f = .next b) : ∃ a, o = .next a ∧ f a = .next b := by
  cases o with
  | next a => exact ⟨a, rfl, h⟩
  | fault e => cases h
  | refused r => cases h

/-- A run of one step more that ends in a next state took a step first. -/
theorem runSteps_succ_cases {n : Nat} {s t : State} (h : runSteps (n + 1) s = .next t) :
    ∃ u, step s = .next u ∧ runSteps n u = .next t := afterNext_cases h

/-- How the host's run of any machine begins. -/
theorem coreRun_succ (M : Host.Core) (n : Nat) (s : M.State) :
    (∀ t, M.step s = .next t → M.run (n + 1) s = M.run n t) ∧
    (∀ e, M.step s = .fault e → M.run (n + 1) s = .fault e) ∧
    (∀ r, M.step s = .refused r → M.run (n + 1) s = .refused r) := by
  refine ⟨fun _ h => ?_, fun _ h => ?_, fun _ h => ?_⟩ <;> simp only [Host.Core.run, h]

/-- `runSteps` is the host's own run of the machine. -/
theorem runSteps_eq_coreRun (n : Nat) (s : State) : runSteps n s = Host.Core.run Sys2Proof.core n s := by
  induction n generalizing s with
  | zero => rfl
  | succ n ih =>
    obtain ⟨hnext, hfault, hrefused⟩ := coreRun_succ Sys2Proof.core n s
    cases hs : step s with
    | next u => exact ((congrArg (afterNext · (runSteps n)) hs).trans (ih u)).trans (hnext u hs).symm
    | fault e => exact (congrArg (afterNext · (runSteps n)) hs).trans (hfault e hs).symm
    | refused r => exact (congrArg (afterNext · (runSteps n)) hs).trans (hrefused r hs).symm

end Sys2Proof.Machine
end

