-- ==== Sys2Proof/Laws/PerInstr.lean ====
section
/-! SUPPORT. The family of statements made for every command: the word assembled for it lies in its row of
spec/opcode_table.json and has the bits that no command reads at 0 (30_encoding.md R81, R93). -/

namespace Sys2Proof.Laws

/-- The row's opcode, `cw[23:20]` (30_encoding.md R81). -/
def rowOpcode : Instr → BitVec 4
  | .getControl => 0x0
  | .setControl _ => 0x1
  | .getSeconds => 0x2
  | .setSeconds _ => 0x3
  | .getMinutes => 0x4
  | .setMinutes _ => 0x5
  | .getHours => 0x6
  | .setHours _ _ _ _ => 0x7
  | .getDay => 0x8
  | .setDay _ => 0x9
  | .getWeekday => 0xA
  | .setWeekday _ => 0xB
  | .getMonth => 0xC
  | .setMonth _ => 0xD
  | .getYear => 0xE
  | .setYear _ => 0xF

/-- The assembled word has its row's opcode and zeros at bits 19:18. -/
def EncodeInRow.Statement (i : Instr) : Prop :=
  (encode i).extractLsb' 20 4 = rowOpcode i ∧ (encode i).extractLsb' 18 2 = 0

/-- The opcode bits of an assembled word, whatever its operands. -/
theorem assembleWord_opcode (f : Field) (wr mode ampm : Bool) (arg1 arg0 : Byte) :
    (assembleWord f wr mode ampm arg1 arg0).extractLsb' 20 4 = fieldSel f ++ BitVec.ofBool wr := by
  apply BitVec.eq_of_getLsbD_eq
  intro k hk
  rcases k with _ | _ | _ | _ | k <;> first | omega | (cases f <;> cases wr <;> simp [assembleWord, fieldSel])

theorem assembleWord_unused (f : Field) (wr mode ampm : Bool) (arg1 arg0 : Byte) :
    (assembleWord f wr mode ampm arg1 arg0).extractLsb' 18 2 = 0 := by
  apply BitVec.eq_of_getLsbD_eq
  intro k hk
  rcases k with _ | _ | k <;> first | omega | simp [assembleWord]

theorem EncodeInRow.of_assemble {i : Instr} (f : Field) (wr mode ampm : Bool) (arg1 arg0 : Byte)
    (he : encode i = assembleWord f wr mode ampm arg1 arg0) (ho : fieldSel f ++ BitVec.ofBool wr = rowOpcode i) :
    EncodeInRow.Statement i :=
  ⟨by rw [he, assembleWord_opcode]; exact ho, by rw [he, assembleWord_unused]⟩

theorem EncodeInRow.getControl : EncodeInRow.Statement .getControl := of_assemble _ _ _ _ _ _ rfl rfl
theorem EncodeInRow.setControl (cs : ControlState) : EncodeInRow.Statement (.setControl cs) :=
  of_assemble _ _ _ _ _ _ rfl rfl
theorem EncodeInRow.getSeconds : EncodeInRow.Statement .getSeconds := of_assemble _ _ _ _ _ _ rfl rfl
theorem EncodeInRow.setSeconds (v : Nat) : EncodeInRow.Statement (.setSeconds v) :=
  of_assemble _ _ _ _ _ _ rfl rfl
theorem EncodeInRow.getMinutes : EncodeInRow.Statement .getMinutes := of_assemble _ _ _ _ _ _ rfl rfl
theorem EncodeInRow.setMinutes (v : Nat) : EncodeInRow.Statement (.setMinutes v) :=
  of_assemble _ _ _ _ _ _ rfl rfl
theorem EncodeInRow.getHours : EncodeInRow.Statement .getHours := of_assemble _ _ _ _ _ _ rfl rfl
theorem EncodeInRow.setHours (mode : HourMode) (ampm : Bool) (h12 h24 : Nat) :
    EncodeInRow.Statement (.setHours mode ampm h12 h24) := of_assemble _ _ _ _ _ _ rfl rfl
theorem EncodeInRow.getDay : EncodeInRow.Statement .getDay := of_assemble _ _ _ _ _ _ rfl rfl
theorem EncodeInRow.setDay (v : Nat) : EncodeInRow.Statement (.setDay v) := of_assemble _ _ _ _ _ _ rfl rfl
theorem EncodeInRow.getWeekday : EncodeInRow.Statement .getWeekday := of_assemble _ _ _ _ _ _ rfl rfl
theorem EncodeInRow.setWeekday (v : Nat) : EncodeInRow.Statement (.setWeekday v) :=
  of_assemble _ _ _ _ _ _ rfl rfl
theorem EncodeInRow.getMonth : EncodeInRow.Statement .getMonth := of_assemble _ _ _ _ _ _ rfl rfl
theorem EncodeInRow.setMonth (v : Nat) : EncodeInRow.Statement (.setMonth v) :=
  of_assemble _ _ _ _ _ _ rfl rfl
theorem EncodeInRow.getYear : EncodeInRow.Statement .getYear := of_assemble _ _ _ _ _ _ rfl rfl
theorem EncodeInRow.setYear (v : Nat) : EncodeInRow.Statement (.setYear v) := of_assemble _ _ _ _ _ _ rfl rfl

end Sys2Proof.Laws
end

