-- ==== Sys2Proof/Tests/Slice0.lean ====
section
/-! SUPPORT. The model's own tests: well-formedness, the opcode map by words written out, one-step tests with values from
95_test_vectors.md, and a witness that the hypotheses of each statement can be met. -/

namespace Sys2Proof.Tests

open Sys2Proof Sys2Proof.Machine

/-! ### Helpers -/

/-- The next state of an outcome, if it is one. -/
def nextOf {α : Type} : Host.Outcome α Fault Refusal → Option α
  | .next s => some s
  | .fault _ => none
  | .refused _ => none

/-- IDLE with the word `cw` at the command port. -/
def idleAt (cw : CommandWord) : State := { State.reset with inp := commandSample cw }

/-- WAIT for the command word `cw` after `k` ticks, with the sample `x` at the ports. -/
def waitAt (cw : CommandWord) (k : BitVec 7) (x : Inputs) : State :=
  { State.reset with ph := .wait, cmd := cw, txq := formTxq cw, tmr := k, inp := x }

/-- RESP after the word `cw`, with the sample `x` at the ports. -/
def respAt (cw : CommandWord) (x : Inputs) : State :=
  { State.reset with ph := .resp, cmd := cw, rsp := ⟨.commFailure, none⟩, inp := x }

/-- The sample in which the host takes the response. -/
def takeSample : Inputs := { quietInputs with rspReady := true }

/-- The packed request after a step that accepts `cw`, if one was issued. -/
def issued (cw : CommandWord) : Option (BitVec 24) :=
  (nextOf (step (idleAt cw))).bind fun t => if t.txqValid && decide (t.ph = .wait) then some (txqPort t) else none

/-- The packed response after a step that completes `cw` with `c`, if the step ends the command. -/
def answered (cw : CommandWord) (c : Completion) : Option (BitVec 19) :=
  (nextOf (step (waitAt cw 0 (completionSample c)))).bind fun t => if rspValid t then some (rspPort t) else none

/-- The packed response of a word refused in its accept step, with no request. -/
def refusedAtOnce (cw : CommandWord) : Option (BitVec 19) :=
  (nextOf (step (idleAt cw))).bind fun t => if rspValid t && !t.txqValid then some (rspPort t) else none

/-! ### Well-formedness: one ill-formed term for each check -/

theorem test_setSeconds_too_wide : (Instr.setSeconds 256).wellFormed = false := by decide
theorem test_setMinutes_too_wide : (Instr.setMinutes 256).wellFormed = false := by decide
theorem test_setHours_h12_too_wide : (Instr.setHours .mode12 true 256 0).wellFormed = false := by decide
theorem test_setHours_h24_too_wide : (Instr.setHours .mode24 true 0 256).wellFormed = false := by decide
theorem test_setDay_too_wide : (Instr.setDay 256).wellFormed = false := by decide
theorem test_setWeekday_too_wide : (Instr.setWeekday 256).wellFormed = false := by decide
theorem test_setMonth_too_wide : (Instr.setMonth 256).wellFormed = false := by decide
theorem test_setYear_too_wide : (Instr.setYear 256).wellFormed = false := by decide
theorem test_out_of_range_is_well_formed : (Instr.setSeconds 255).wellFormed = true := by decide

/-! ### Decoding: every row by a word written out from 30_encoding.md R80, ignored bits set in some -/

theorem test_decode_control :
    decode 0b000_0_11_1_1_11111111_11111111#24 = .getControl ∧
    decode 0b000_1_00_0_0_00000000_11001010#24 = .setControl ⟨true, false, false, true, false, true, false⟩ := by decide
theorem test_decode_seconds :
    decode 0b001_0_00_0_0_00000000_00000000#24 = .getSeconds ∧
    decode 0b001_1_11_1_1_11111111_00111010#24 = .setSeconds 58 := by decide
theorem test_decode_minutes :
    decode 0b010_0_00_0_0_00000000_00000000#24 = .getMinutes ∧
    decode 0b010_1_00_0_0_00000000_00111011#24 = .setMinutes 59 := by decide
theorem test_decode_hours :
    decode 0b011_0_00_0_0_00000000_00000000#24 = .getHours ∧
    decode 0b011_1_00_0_1_11111111_00000111#24 = .setHours .mode24 true 255 7 ∧
    decode 0b011_1_11_1_0_00000101_01100011#24 = .setHours .mode12 false 5 99 := by decide
theorem test_decode_day :
    decode 0b100_0_00_0_0_00000000_00000000#24 = .getDay ∧
    decode 0b100_1_00_0_0_00000000_00011111#24 = .setDay 31 := by decide
theorem test_decode_weekday :
    decode 0b101_0_00_0_0_00000000_00000000#24 = .getWeekday ∧
    decode 0b101_1_00_0_0_00000000_00000101#24 = .setWeekday 5 := by decide
theorem test_decode_month :
    decode 0b110_0_00_0_0_00000000_00000000#24 = .getMonth ∧
    decode 0b110_1_00_0_0_00000000_00001100#24 = .setMonth 12 := by decide
theorem test_decode_year :
    decode 0b111_0_00_0_0_00000000_00000000#24 = .getYear ∧
    decode 0b111_1_00_0_0_00000000_01100011#24 = .setYear 99 := by decide
theorem test_table_word : decodeTableWord 24 0x730B00 = some (.setHours .mode12 true 11 0) := by decide
/-- 30_encoding.md R93: a flag list. -/
theorem test_assemble_flags : assemble (.setControlFlags [.mode1224]) = some 0x100008 := by decide
theorem test_assemble_h12 : assemble (.setHoursH12 1 11) = some 0x730B00 := by decide

/-! ### Transactions formed (95_test_vectors.md 2.6) -/

theorem test_issue_getControl : issued 0x000000 = some 0xE80000 := by decide
theorem test_issue_setControl : issued 0x10004A = some 0x68008A := by decide
theorem test_issue_getSeconds : issued 0x200000 = some 0xE80300 := by decide
theorem test_issue_setSeconds : issued 0x30003A = some 0x680358 := by decide
theorem test_issue_getMinutes : issued 0x400000 = some 0xE80400 := by decide
theorem test_issue_setMinutes : issued 0x50003B = some 0x680459 := by decide
theorem test_issue_getHours : issued 0x600000 = some 0xE80500 := by decide
theorem test_issue_setHours : issued 0x700017 = some 0x680523 ∧ issued 0x730B00 = some 0x680531 := by decide
theorem test_issue_getDay : issued 0x800000 = some 0xE80600 := by decide
theorem test_issue_setDay : issued 0x90001F = some 0x680631 := by decide
theorem test_issue_getWeekday : issued 0xA00000 = some 0xE80700 := by decide
theorem test_issue_setWeekday : issued 0xB00005 = some 0x680705 := by decide
theorem test_issue_getMonth : issued 0xC00000 = some 0xE80800 := by decide
theorem test_issue_setMonth : issued 0xD0000C = some 0x680812 := by decide
theorem test_issue_getYear : issued 0xE00000 = some 0xE80900 := by decide
theorem test_issue_setYear : issued 0xF00063 = some 0x680999 := by decide

/-! ### Answers (95_test_vectors.md 2.2 to 2.5, T6, P4) and refusals (S3, S4) -/

theorem test_answer_getControl : answered 0x000000 ⟨.ok, 0x58⟩ = some 0x00018 := by decide
theorem test_answer_getSeconds : answered 0x200000 ⟨.ok, 0xD9⟩ = some 59 := by decide
theorem test_answer_getMinutes : answered 0x400000 ⟨.ok, 0x71⟩ = some 71 := by decide
theorem test_answer_getHours : answered 0x600000 ⟨.ok, 0x31⟩ = some 0x10B1F := by decide
theorem test_answer_getDay : answered 0x800000 ⟨.ok, 0x15⟩ = some 0x0000F ∧ answered 0x800000 ⟨.other, 0x15⟩ = some 0x20000 := by
  decide
theorem test_answer_getWeekday : answered 0xA00000 ⟨.ok, 0xFD⟩ = some 5 := by decide
theorem test_answer_getMonth : answered 0xC00000 ⟨.ok, 0x92⟩ = some 12 := by decide
theorem test_answer_getYear : answered 0xE00000 ⟨.ok, 0xD9⟩ = some 139 := by decide
theorem test_answer_rejected_set : answered 0x100000 ⟨.invalidArg, 0⟩ = some 0x40000 := by decide
theorem test_refuse_setSeconds : refusedAtOnce 0x30003C = some 0x40000 := by decide
theorem test_refuse_setMinutes : refusedAtOnce 0x50003C = some 0x40000 := by decide
theorem test_refuse_setHours : refusedAtOnce 0x700018 = some 0x40000 ∧ refusedAtOnce 0x720000 = some 0x40000 := by decide
theorem test_refuse_setDay : refusedAtOnce 0x900000 = some 0x40000 ∧ refusedAtOnce 0x900020 = some 0x40000 := by decide
theorem test_refuse_setWeekday : refusedAtOnce 0xB00007 = some 0x40000 := by decide
theorem test_refuse_setMonth : refusedAtOnce 0xD00000 = some 0x40000 ∧ refusedAtOnce 0xD0000D = some 0x40000 := by decide
theorem test_refuse_setYear : refusedAtOnce 0xF00000 = some 0x40000 := by decide

/-- 95_test_vectors.md T3, step 101: the hundredth tick. -/
theorem test_timeout : (nextOf (step (waitAt 0x500005 99 tickSample))).map (fun t => (t.tmr, t.txAbort, rspPort t)) =
    some (100, true, 0x20000) := by decide
/-- 95_test_vectors.md T4, step 101: a completion with the hundredth tick. -/
theorem test_completion_beats_hundredth_tick :
    (nextOf (step (waitAt 0x500005 99 { completionSample ⟨.ok, 0⟩ with tick := true }))).map
      (fun t => (t.tmr, t.txAbort, rspPort t)) = some (99, false, 0) := by decide
/-- A table word placed for the next step after reset is accepted by it. -/
theorem test_withFetchWord :
    (nextOf (step (State.reset.withFetchWord 24 0x30003A))).map (fun t => (t.cmd, t.txqValid, txqPort t)) =
      some (0x30003A, true, 0x680358) := by decide

/-! ### Witnesses: the hypotheses of the statements can be met -/

/-- A command's outcome clauses: rejected, failed (both statuses), ticked at 98, timed out at 99, waited, delivered. -/
def outcomesMet (cw : CommandWord) (t : Txq) : Prop :=
  (inFlight t (waitAt cw 0 (completionSample ⟨.invalidArg, 0⟩)) ∧
    (completion (waitAt cw 0 (completionSample ⟨.invalidArg, 0⟩))).status = .invalidArg) ∧
  (completion (waitAt cw 0 (completionSample ⟨.fail, 0⟩))).status = .fail ∧
  (completion (waitAt cw 0 (completionSample ⟨.other, 0⟩))).status = .other ∧
  (inFlight t (waitAt cw 98 tickSample) ∧ (waitAt cw 98 tickSample).inp.tick = true ∧
    (waitAt cw 98 tickSample).tmr.toNat ≤ 98) ∧
  (inFlight t (waitAt cw 99 tickSample) ∧ (waitAt cw 99 tickSample).tmr.toNat = 99) ∧
  (inFlight t (waitAt cw 0 quietInputs) ∧ (waitAt cw 0 quietInputs).inp.txcValid = false) ∧
  ((respAt cw takeSample).ph = .resp ∧ (respAt cw takeSample).inp.rspReady = true)

/-- A get's clauses: a word of its opcode with every ignored bit set, IDLE, a byte read, the outcomes. -/
def getMet (cw : CommandWord) (opcode : BitVec 4) (addr : Byte) : Prop :=
  (cw ||| 0x0FFFFF).extractLsb' 20 4 = opcode ∧ (idleAt cw).ph = .idle ∧
  (inFlight (readRecord addr) (waitAt cw 0 (completionSample ⟨.ok, 0xFF⟩)) ∧
    completion (waitAt cw 0 (completionSample ⟨.ok, 0xFF⟩)) = ⟨.ok, 0xFF⟩) ∧
  outcomesMet cw (readRecord addr)

/-- A set's clauses on a valid word: a word that differs in a masked-out bit, IDLE, a write in flight, the outcomes. -/
def setMet (cw mask : CommandWord) (addr data : Byte) : Prop :=
  (cw ||| 0x0C0000) &&& mask = cw ∧ (idleAt cw).ph = .idle ∧
  (inFlight (writeRecord addr data) (waitAt cw 0 (completionSample ⟨.ok, 0⟩)) ∧
    (completion (waitAt cw 0 (completionSample ⟨.ok, 0⟩))).status = .ok) ∧
  outcomesMet cw (writeRecord addr data)

theorem witness_GetControlReadsTheSevenFlags : getMet 0x000000 0x0 0x00 := by unfold getMet outcomesMet inFlight; decide
theorem witness_GetSecondsReadsTwoDigits : getMet 0x200000 0x2 0x03 := by unfold getMet outcomesMet inFlight; decide
theorem witness_GetMinutesReadsTwoDigits : getMet 0x400000 0x4 0x04 := by unfold getMet outcomesMet inFlight; decide
theorem witness_GetHoursReadsBothRepresentations : getMet 0x600000 0x6 0x05 := by
  unfold getMet outcomesMet inFlight; decide
theorem witness_GetDayReadsTwoDigits : getMet 0x800000 0x8 0x06 := by unfold getMet outcomesMet inFlight; decide
theorem witness_GetWeekdayReadsThreeBits : getMet 0xA00000 0xA 0x07 := by unfold getMet outcomesMet inFlight; decide
theorem witness_GetMonthReadsTwoDigits : getMet 0xC00000 0xC 0x08 := by unfold getMet outcomesMet inFlight; decide
theorem witness_GetYearReadsTwoDigits : getMet 0xE00000 0xE 0x09 := by unfold getMet outcomesMet inFlight; decide

/-- Every flag at 1; the flags have no refused value. -/
theorem witness_SetControlWritesTheSevenFlags : setMet 0x10007F 0xF0007F 0x00 0xBF := by
  unfold setMet outcomesMet inFlight; decide
/-- 59 accepted, 60 refused. -/
theorem witness_SetSecondsWritesTwoDigits : setMet 0x30003B 0xF000FF 0x03 0x59 ∧ (59 ≤ 59 ∧ ¬ 60 ≤ 59) := by
  unfold setMet outcomesMet inFlight; decide
theorem witness_SetMinutesWritesTwoDigits : setMet 0x50003B 0xF000FF 0x04 0x59 ∧ (59 ≤ 59 ∧ ¬ 60 ≤ 59) := by
  unfold setMet outcomesMet inFlight; decide
/-- 24-hour: 23 accepted, 24 refused, the unread operands at their greatest. 12-hour: 1 and 12 accepted, 0 and 13
refused. -/
theorem witness_SetHoursWritesTheSelectedHour :
    setMet 0x71FF17 0xF3FFFF 0x05 0x23 ∧ (23 ≤ 23 ∧ ¬ 24 ≤ 23) ∧ setMet 0x730CFF 0xF3FFFF 0x05 0x32 ∧
    ((1 ≤ 1 ∧ 12 ≤ 12) ∧ ¬ (1 ≤ 0 ∧ 0 ≤ 12) ∧ ¬ (1 ≤ 13 ∧ 13 ≤ 12)) := by
  unfold setMet outcomesMet inFlight; decide
/-- 1 and 31 accepted, 0 and 32 refused. -/
theorem witness_SetDayWritesTwoDigits : setMet 0x90001F 0xF000FF 0x06 0x31 ∧ setMet 0x900001 0xF000FF 0x06 0x01 ∧
    ((1 ≤ 1 ∧ 31 ≤ 31) ∧ ¬ (1 ≤ 0 ∧ 0 ≤ 31) ∧ ¬ (1 ≤ 32 ∧ 32 ≤ 31)) := by
  unfold setMet outcomesMet inFlight; decide
theorem witness_SetWeekdayWritesThreeBits : setMet 0xB00006 0xF000FF 0x07 0x06 ∧ (6 ≤ 6 ∧ ¬ 7 ≤ 6) := by
  unfold setMet outcomesMet inFlight; decide
/-- 1 and 12 accepted, 0 and 13 refused. -/
theorem witness_SetMonthWritesTwoDigits : setMet 0xD0000C 0xF000FF 0x08 0x12 ∧ setMet 0xD00001 0xF000FF 0x08 0x01 ∧
    ((1 ≤ 1 ∧ 12 ≤ 12) ∧ ¬ (1 ≤ 0 ∧ 0 ≤ 12) ∧ ¬ (1 ≤ 13 ∧ 13 ≤ 12)) := by
  unfold setMet outcomesMet inFlight; decide
/-- 1 and 99 accepted, 0 and 100 refused. -/
theorem witness_SetYearWritesTwoDigits : setMet 0xF00063 0xF000FF 0x09 0x99 ∧ setMet 0xF00001 0xF000FF 0x09 0x01 ∧
    ((1 ≤ 1 ∧ 99 ≤ 99) ∧ ¬ (1 ≤ 0 ∧ 0 ≤ 99) ∧ ¬ (1 ≤ 100 ∧ 100 ≤ 99)) := by
  unfold setMet outcomesMet inFlight; decide

theorem witness_DecodeOfEncodeIsTheCommand : (Instr.setHours .mode12 true 255 255).wellFormed = true := by decide

/-- Two words that differ only in ignored bits: bits 19:16 and `ARG1` of a get; `ARG0` of a 12-hour set. -/
theorem witness_IgnoredBitsDoNotChangeTheEffect :
    (0x2FFFFF : CommandWord) &&& readBits 0x2FFFFF = 0x200000 &&& readBits 0x200000 ∧
    (0x7F0B63 : CommandWord) &&& readBits 0x7F0B63 = 0x730B00 &&& readBits 0x730B00 := by decide

theorem witness_AssembledLinesDecode : assemble (.setHoursH12 1 255) = some 0x73FF00 := by decide

/-- IDLE with a command, WAIT, and RESP, each without a reset; and `exec` with a next state. -/
theorem witness_StepRunsTheCommandInFlight :
    ((idleAt 0x200000).inp.rst = false ∧ (idleAt 0x200000).inp.cmdValid = true) ∧
    ((waitAt 0x200000 0 quietInputs).inp.rst = false ∧ (waitAt 0x200000 0 quietInputs).ph = .wait) ∧
    ((respAt 0x200000 quietInputs).inp.rst = false ∧ (respAt 0x200000 quietInputs).ph = .resp) ∧
    (nextOf (exec (current (idleAt 0x200000)) (idleAt 0x200000))).isSome = true := by decide

theorem witness_PresentedWordIsAcceptedNext : 0xFFFFFF < 2 ^ 24 := by decide

theorem witness_StepWithoutACommandChangesNoLatch :
    State.reset.inp.rst = false ∧ State.reset.ph = .idle ∧ State.reset.inp.cmdValid = false := by decide

theorem witness_ResetStepAbandonsTheCommand :
    (waitAt 0x200000 5 { quietInputs with rst := true }).inp.rst = true ∧
    (waitAt 0x200000 5 { quietInputs with rst := true }).ph = .wait := by decide

/-- The invariant holds of a set in flight one tick before its timeout, whatever is at the ports. -/
theorem inv_waitAt_setYear (x : Inputs) : Inv (waitAt 0xF00063 99 x) where
  timer_bounded := by show (99#7).toNat ≤ 100; decide
  file_wf := by show Memory.wf []; decide
  file_drawn := by show 0 ≤ 0; decide
  waiting := fun _ => ⟨by simp only [waitAt], by show passes 0xF00063 = true; decide, by show (99#7).toNat < 100; decide⟩
  responding := fun h => by cases h
  request_pulse := fun h => by cases h
  abort_pulse := fun h => by cases h

/-- The invariant holds of a get in flight. -/
theorem inv_waitAt_getDay (x : Inputs) : Inv (waitAt 0x800000 0 x) where
  timer_bounded := by show (0#7).toNat ≤ 100; decide
  file_wf := by show Memory.wf []; decide
  file_drawn := by show 0 ≤ 0; decide
  waiting := fun _ => ⟨by simp only [waitAt], by show passes 0x800000 = true; decide, by show (0#7).toNat < 100; decide⟩
  responding := fun h => by cases h
  request_pulse := fun h => by cases h
  abort_pulse := fun h => by cases h

theorem witness_EveryStepKeepsTheInvariant :
    Inv (waitAt 0xF00063 99 tickSample) ∧ (nextOf (step (waitAt 0xF00063 99 tickSample))).isSome = true :=
  ⟨inv_waitAt_setYear _, by decide⟩

theorem witness_NoStepFaultsUnderTheInvariant : Inv (waitAt 0xF00063 99 tickSample) := inv_waitAt_setYear _

/-- The greatest `tmr` the tick step counts from, and a tick outside WAIT. -/
theorem witness_TickStepCountsOne :
    ((waitAt 0x200000 98 tickSample).inp.rst = false ∧ (waitAt 0x200000 98 tickSample).inp.txcValid = false ∧
      (waitAt 0x200000 98 tickSample).inp.tick = true ∧ (waitAt 0x200000 98 tickSample).tmr.toNat ≤ 98) ∧
    (respAt 0x200000 tickSample).ph ≠ .wait := by decide

theorem witness_HundredthTickTimesOut :
    (waitAt 0x500005 99 tickSample).inp.rst = false ∧ (waitAt 0x500005 99 tickSample).ph = .wait ∧
    (waitAt 0x500005 99 tickSample).inp.txcValid = false ∧ (waitAt 0x500005 99 tickSample).tmr.toNat = 99 := by decide

theorem witness_CompletionWinsOverTick :
    (waitAt 0x500005 99 (completionSample ⟨.ok, 0⟩)).inp.rst = false ∧
    (waitAt 0x500005 99 (completionSample ⟨.ok, 0⟩)).ph = .wait ∧
    (waitAt 0x500005 99 (completionSample ⟨.ok, 0⟩)).inp.txcValid = true ∧
    (waitAt 0x500005 99 tickSample).inp.txcValid = false ∧ (waitAt 0x500005 99 tickSample).inp.tick = true ∧
    (waitAt 0x500005 99 tickSample).tmr.toNat = 99 := by decide

theorem witness_DeliverStepReturnsToIdle :
    (respAt 0x200000 takeSample).inp.rst = false ∧ (respAt 0x200000 takeSample).ph = .resp ∧
    (respAt 0x200000 takeSample).inp.rspReady = true := by decide

theorem witness_IgnoredInputsChangeNothing :
    (idleAt 0x200000).ph ≠ .wait ∧ (waitAt 0x200000 0 quietInputs).ph ≠ .idle ∧
    (waitAt 0x200000 0 quietInputs).ph ≠ .resp := by decide

/-- An accept step and a timeout step, each with a next state. -/
theorem witness_PulsesMarkIssueAndAbort :
    (nextOf (step (idleAt 0x200000))).isSome = true ∧ accepts (idleAt 0x200000) = true ∧
    (nextOf (step (waitAt 0x200000 99 tickSample))).isSome = true ∧ timesOut (waitAt 0x200000 99 tickSample) = true := by
  decide

theorem witness_OneResponsePerCommand :
    (respAt 0x200000 takeSample).inp.rst = false ∧ (nextOf (step (respAt 0x200000 takeSample))).isSome = true := by decide

theorem witness_EveryCompletionAnswersOneRequest :
    engineKeepsToRequests (waitAt 0x200000 0 (completionSample ⟨.ok, 0⟩)) ∧
    (nextOf (step (waitAt 0x200000 0 (completionSample ⟨.ok, 0⟩)))).isSome = true :=
  ⟨fun _ => rfl, by decide⟩

/-- The least and the greatest `FSEL`. -/
theorem witness_MultiplexerSendsTheFieldsAddress :
    (idleAt 0x000000).ph = .idle ∧ passes 0x000000 = true ∧ passes 0xF00063 = true := by decide

theorem witness_OnlyTheEightRegistersAreAddressed :
    ((nextOf (step (idleAt 0xF00063))).map State.txqValid) = some true := by decide

theorem witness_SetsWriteUnnamedBitsAsZero :
    ((nextOf (step (idleAt 0x30003B))).map State.txqValid) = some true ∧
    isGet (decode (idleAt 0x30003B).inp.cmd) = false := by decide

/-- A set that succeeds, a get that succeeds, a rejection, a failure: each from a state that meets the invariant. -/
theorem witness_OutcomeDecidesTheRegisterFile :
    (∀ x, Inv (waitAt 0xF00063 99 x) ∧ Inv (waitAt 0x800000 0 x)) ∧
    isGet (decode 0xF00063) = false ∧ isGet (decode 0x800000) = true ∧
    (∀ st ∈ [TxStatus.ok, .fail, .invalidArg, .other],
      (completion (waitAt 0xF00063 99 (completionSample ⟨st, 0⟩))).status = st ∧
      (waitAt 0xF00063 99 (completionSample ⟨st, 0⟩)).inp.own = [] ∧
      (nextOf (step (waitAt 0xF00063 99 (completionSample ⟨st, 0⟩)))).isSome = true) :=
  ⟨fun x => ⟨inv_waitAt_setYear x, inv_waitAt_getDay x⟩, by decide, by decide, by decide⟩

theorem witness_AcceptanceFrame :
    (idleAt 0x30003C).ph = .idle ∧ (nextOf (exec (.setSeconds 60) (idleAt 0x30003C))).isSome = true := by decide

/-- A get in flight that succeeds, and one that ticks on. -/
theorem witness_GetFrame :
    isGet .getDay = true ∧ (waitAt 0x800000 0 (completionSample ⟨.ok, 0x15⟩)).txq.kind = .writeThenRead ∧
    (nextOf (exec .getDay (waitAt 0x800000 0 (completionSample ⟨.ok, 0x15⟩)))).map (fun t => t.rsp.result) =
      some .success ∧
    (nextOf (exec .getDay (waitAt 0x800000 0 tickSample))).map (fun t => t.ph) = some .wait := by decide

/-- A set in flight that succeeds, one that is rejected, one that ticks on. -/
theorem witness_SetFrame :
    isGet (.setYear 99) = false ∧ (waitAt 0xF00063 0 tickSample).txq.kind = .writeOnly ∧
    (nextOf (exec (.setYear 99) (waitAt 0xF00063 0 (completionSample ⟨.ok, 0⟩)))).map (fun t => t.rsp.result) =
      some .success ∧
    (nextOf (exec (.setYear 99) (waitAt 0xF00063 0 (completionSample ⟨.invalidArg, 0⟩)))).map (fun t => t.rsp.result) =
      some .invalidParam ∧
    (nextOf (exec (.setYear 99) (waitAt 0xF00063 0 tickSample))).map (fun t => t.ph) = some .wait := by decide

theorem witness_DeliveryFrame :
    (respAt 0xF00063 takeSample).ph = .resp ∧ (nextOf (exec (.setYear 99) (respAt 0xF00063 takeSample))).isSome = true := by
  decide

/-- A set refused at once, and a command in flight. -/
theorem witness_ResultsEachCommandCanEndWith :
    (nextOf (exec (.setWeekday 7) (idleAt 0xB00007))).map (fun t => t.ph) = some .resp ∧
    (waitAt 0xB00006 0 quietInputs).ph = .wait := by decide

theorem witness_PayloadsHaveTheirShapesAndBounds :
    (nextOf (exec .getYear (waitAt 0xE00000 0 (completionSample ⟨.ok, 0xFF⟩)))).map (fun t => (t.ph, t.rsp)) =
      some (.resp, ⟨.success, some (.value 165)⟩) := by decide

/-- No tick before the completion, and the ninety-nine ticks that still leave room for it. -/
theorem witness_AcceptedCommandAnswersItsCompletion :
    ∀ k ∈ [0, 99],
      ∃ s : State, s.ph = .idle ∧ passes 0xF00063 = true ∧ k ≤ 99 ∧ s.inp = commandSample 0xF00063 ∧
        s.upcoming = List.replicate k tickSample ++ completionSample ⟨.ok, 0⟩ ::
          { quietInputs with rspReady := true } :: [] := by
  intro k hk
  exact ⟨{ idleAt 0xF00063 with upcoming := List.replicate k tickSample ++ completionSample ⟨.ok, 0⟩ ::
    { quietInputs with rspReady := true } :: [] }, rfl, by decide, by simp at hk; omega, rfl, rfl⟩

theorem witness_HundredTicksEndTheWait :
    ∃ s : State, Inv s ∧ s.ph = .wait ∧ 99 ≤ s.upcoming.length ∧
      ∀ x ∈ (samples s).take 100, x.tick = true ∧ x.rst = false := by
  refine ⟨{ waitAt 0x800000 0 tickSample with upcoming := List.replicate 99 tickSample }, ?_, rfl, by simp, by decide⟩
  have h := inv_waitAt_getDay tickSample
  exact ⟨h.1, h.2, h.3, h.4, h.5, h.6, h.7⟩

theorem witness_WaitHangsWithoutTicks :
    ∃ s : State, s.ph = .wait ∧ 2 ≤ s.upcoming.length + 1 ∧
      ∀ x ∈ (samples s).take 2, x.tick = false ∧ x.txcValid = false ∧ x.rst = false :=
  ⟨{ waitAt 0x800000 0 quietInputs with upcoming := [quietInputs] }, rfl, by decide, by decide⟩

theorem witness_TimedBlockRefinesFreeTimeout :
    Inv (waitAt 0xF00063 99 tickSample) ∧ (nextOf (step (waitAt 0xF00063 99 tickSample))).isSome = true :=
  ⟨inv_waitAt_setYear _, by decide⟩

/-- A fresh block and one that failed a command before, shown the same command. -/
theorem witness_OutputsForgetEarlierCommands :
    ∃ s s' : State, s.ph = .idle ∧ s'.ph = .idle ∧ samples s = samples s' ∧ 1 ≤ s.upcoming.length + 1 ∧ s.rsp ≠ s'.rsp ∧
      (nextOf (runSteps 1 s)).isSome = true :=
  ⟨idleAt 0x200000, { idleAt 0x200000 with rsp := ⟨.commFailure, none⟩, cmd := 0x500005, tmr := 100 }, rfl, rfl, rfl,
    by decide, by decide, by decide⟩

/-- An idle bench; the bounds of each field's range, 12 o'clock among them. -/
theorem witness_SetThenGetThroughTheRegisterFile :
    (Bench.mk State.reset State.reset.per).block.ph = .idle ∧ (0 ≤ 59 ∧ 59 ≤ 59) ∧ (0 ≤ 23 ∧ 23 ≤ 23) ∧ (1 ≤ 12 ∧ 12 ≤ 12) ∧
      (1 ≤ 31 ∧ 31 ≤ 31) ∧ (0 ≤ 6 ∧ 6 ≤ 6) ∧ (1 ≤ 99 ∧ 99 ≤ 99) := by decide

/-- 95_test_vectors.md P2: a 12-hour set read back through RF. -/
theorem test_readsBack_hours :
    ((nextOf (benchCommand .registerFile 0x730B00 ⟨State.reset, State.reset.per⟩)).bind fun b1 => (nextOf (benchTake b1)).bind fun b2 =>
      (nextOf (benchCommand .registerFile 0x600000 b2)).map fun b3 => rspPort b3.block) = some 0x10B1F := by decide

/-- The three result codes, each in its pair; a record of each kind. -/
theorem witness_PackedRecordsFollowTheirLayouts :
    (∀ r : Result, r = .success ∨ r = .commFailure ∨ r = .invalidParam) ∧
    ((Result.invalidParam, 2) ∈ [(Result.success, 0), (.commFailure, 1), (.invalidParam, 2)]) ∧
    (writeRecord 3 0x58).kind = .writeOnly ∧ (readRecord 3).kind = .writeThenRead := by
  refine ⟨fun r => ?_, by decide⟩
  cases r <;> decide

end Sys2Proof.Tests
end

/-! PROOFS. The rules the statements about the block's steps rest on: what a command does, read off its word; what each
case of a step is; what every case keeps. -/

namespace Sys2Proof.Machine

/-! ### The tables by `FSEL` say what every command does (40_transaction_fsm.md R112, R114, R120) -/

theorem inRange_zero (hi v : Nat) : inRange 0 hi v = decide (v ≤ hi) := by simp [inRange]

theorem inRange_eq_decide (lo hi v : Nat) : inRange lo hi v = decide (lo ≤ v ∧ v ≤ hi) := by simp [inRange]

/-- A word with `WR = 0` runs as a get of its field, with the decoder of the table. -/
theorem exec_decode_get {cw : CommandWord} (hw : wordIsSet cw = false) (s : State) :
    exec (decode cw) s = runGet (wordField cw) (decodeByte (wordField cw)) s := by
  unfold decode
  cases wordField cw <;> rw [hw] <;> rfl

/-- A word with `WR = 1` runs as a set of its field, with the validator and the encoder of the tables. -/
theorem exec_decode_set {cw : CommandWord} (hw : wordIsSet cw = true) (s : State) :
    exec (decode cw) s = runSet (wordField cw) (validWord cw) (encodeByte cw) s := by
  unfold decode validWord encodeByte
  cases wordField cw <;> rw [hw]
  case control => rfl
  case seconds => exact congrArg (runSet .seconds · _ s) (inRange_zero 59 _)
  case minutes => exact congrArg (runSet .minutes · _ s) (inRange_zero 59 _)
  case hours =>
    refine congrArg (runSet .hours · _ s) ?_
    cases wordMode cw with
    | mode24 => exact inRange_zero 23 _
    | mode12 => exact inRange_eq_decide 1 12 _
  case day => exact congrArg (runSet .day · _ s) (inRange_eq_decide 1 31 _)
  case weekday => exact congrArg (runSet .weekday · _ s) (inRange_zero 6 _)
  case month => exact congrArg (runSet .month · _ s) (inRange_eq_decide 1 12 _)
  case year => exact congrArg (runSet .year · _ s) (inRange_eq_decide 1 99 _)

/-- Every command is the state machine driven by the tables. -/
theorem exec_decode (cw : CommandWord) (s : State) :
    exec (decode cw) s = runCommand (passes cw) (formTxq cw) (wordPayload cw) s := by
  cases hw : wordIsSet cw with
  | false =>
    have hpayload : wordPayload cw = fun b => some (decodeByte (wordField cw) b) :=
      funext fun b => by simp [wordPayload, hw]
    rw [exec_decode_get hw, hpayload]
    simp [runGet, readTxq, Config.devAddr, passes, formTxq, hw]
  | true =>
    have hpayload : wordPayload cw = fun _ => none := funext fun b => by simp [wordPayload, hw]
    rw [exec_decode_set hw, hpayload]
    simp [runSet, writeTxq, Config.devAddr, passes, formTxq, hw]

/-! ### The payload a command word answers with (30_encoding.md R84; 41_bcd_codec.md R143) -/

theorem isGet_decode (cw : CommandWord) : isGet (decode cw) = !wordIsSet cw := by
  unfold decode
  cases wordField cw <;> cases wordIsSet cw <;> rfl

/-- `w` tens bits and four units bits bound the decoded number. -/
theorem bcdDecode_le (b : Byte) (w : Nat) : bcdDecode b w ≤ (2 ^ w - 1) * 10 + 15 := by
  have htens : (b.toNat &&& tensMask w) >>> 4 ≤ 2 ^ w - 1 := by
    calc (b.toNat &&& tensMask w) >>> 4 ≤ tensMask w >>> 4 := by
          simp only [Nat.shiftRight_eq_div_pow]; exact Nat.div_le_div_right Nat.and_le_right
      _ = 2 ^ w - 1 := by simp [tensMask, Nat.shiftLeft_eq, Nat.shiftRight_eq_div_pow]
  have hunits : b.toNat &&& 0x0F ≤ 15 := Nat.and_le_right
  exact Nat.add_le_add (Nat.mul_le_mul_right 10 htens) hunits

theorem bcdValue_toNat_le (b : Byte) (w : Nat) : (bcdValue b w).toNat ≤ (2 ^ w - 1) * 10 + 15 :=
  (BitVec.toNat_ofNat (bcdDecode b w) 8 ▸ Nat.mod_le _ _).trans (bcdDecode_le b w)

theorem wdDecode_toNat_le (b : Byte) : (wdDecode b).toNat ≤ 7 := by
  rw [wdDecode, BitVec.toNat_and]; exact Nat.and_le_right

/-- What the decoder of a field makes of a byte fits a get of that field. -/
theorem payloadFits_decodeByte {cw : CommandWord} (hw : wordIsSet cw = false) (b : Byte) :
    payloadFits (decode cw) (decodeByte (wordField cw) b) := by
  unfold decode
  cases wordField cw <;> rw [hw]
  case control => exact ⟨_, rfl⟩
  case seconds => exact ⟨_, rfl, bcdValue_toNat_le b 3⟩
  case minutes => exact ⟨_, rfl, bcdValue_toNat_le b 3⟩
  case hours => exact ⟨_, _, _, rfl, bcdValue_toNat_le b 1, bcdValue_toNat_le b 2⟩
  case day => exact ⟨_, rfl, bcdValue_toNat_le b 2⟩
  case weekday => exact ⟨_, rfl, wdDecode_toNat_le b⟩
  case month => exact ⟨_, rfl, bcdValue_toNat_le b 1⟩
  case year => exact ⟨_, rfl, bcdValue_toNat_le b 4⟩

/-- A response without payload fits every command, unless it says that a get succeeded. -/
theorem responseFits_none {i : Instr} {r : Result} (h : r = .success → isGet i = false) : responseFits i ⟨r, none⟩ := by
  refine ⟨⟨nofun, fun ⟨hr, hg⟩ => ?_⟩, nofun⟩
  rw [h hr] at hg
  cases hg

/-- A success answers with the payload that the word and the byte read give. -/
theorem responseFits_success (cw : CommandWord) (b : Byte) :
    responseFits (decode cw) ⟨.success, wordPayload cw b⟩ := by
  cases hw : wordIsSet cw with
  | false =>
    rw [wordPayload, hw, if_neg Bool.false_ne_true]
    exact ⟨by simp [isGet_decode, hw], fun p hp => Option.some.inj hp ▸ payloadFits_decodeByte hw b⟩
  | true =>
    rw [wordPayload, hw, if_pos rfl]
    exact responseFits_none fun _ => by simp [isGet_decode, hw]

/-- Whatever the status of a completion, the response it gives to the command fits it. -/
theorem responseFits_complete (cw : CommandWord) (s : State) :
    responseFits (decode cw) (complete (wordPayload cw) s).rsp := by
  rw [complete_eq, respond_rsp]
  cases (completion s).status with
  | ok => exact responseFits_success cw _
  | invalidArg => exact responseFits_none nofun
  | fail => exact responseFits_none nofun
  | other => exact responseFits_none nofun

/-! ### The completion step, field by field -/

@[simp] theorem complete_ph (p : Byte → Option Payload) (s : State) : (complete p s).ph = .resp := by simp [complete_eq]
@[simp] theorem complete_cmd (p : Byte → Option Payload) (s : State) : (complete p s).cmd = s.cmd := by simp [complete_eq]
@[simp] theorem complete_txq (p : Byte → Option Payload) (s : State) : (complete p s).txq = s.txq := by simp [complete_eq]
@[simp] theorem complete_tmr (p : Byte → Option Payload) (s : State) : (complete p s).tmr = s.tmr := by simp [complete_eq]
@[simp] theorem complete_txqValid (p : Byte → Option Payload) (s : State) : (complete p s).txqValid = false := by
  simp [complete_eq]
@[simp] theorem complete_txAbort (p : Byte → Option Payload) (s : State) : (complete p s).txAbort = false := by
  simp [complete_eq]
@[simp] theorem complete_inp (p : Byte → Option Payload) (s : State) : (complete p s).inp = s.inp := by simp [complete_eq]
@[simp] theorem complete_upcoming (p : Byte → Option Payload) (s : State) : (complete p s).upcoming = s.upcoming := by
  simp [complete_eq]
@[simp] theorem complete_draw (p : Byte → Option Payload) (s : State) : (complete p s).draw = s.draw := by
  simp [complete_eq]
@[simp] theorem complete_per (p : Byte → Option Payload) (s : State) :
    (complete p s).per = peripheralAfter s.txq (completion s).status s.draw s.per := by simp [complete_eq]

/-- The response of a completion depends on the completion alone. -/
theorem complete_rsp_congr (p : Byte → Option Payload) {s s' : State} (h : s.inp = s'.inp) :
    (complete p s).rsp = (complete p s').rsp := by
  rw [complete_eq, complete_eq, completion, completion, h]
  rfl

/-! ### The cases of a step -/

/-- The block's side of one step, before the next input sample stands at the ports: one constructor per case of the state
machine (40_transaction_fsm.md R111 to R119, R122, R124; 70_reset_and_hazards.md R230). `step_eq_next_iff` ties it to
`step`. -/
inductive BlockStep (s : State) : State → Prop
  | reset (hrst : s.inp.rst = true) : BlockStep s (resetBlock s)
  | noCommand (hrst : s.inp.rst = false) (hph : s.ph = .idle) (hcmd : s.inp.cmdValid = false) :
      BlockStep s (clearPulses s)
  | issued (hrst : s.inp.rst = false) (hph : s.ph = .idle) (hcmd : s.inp.cmdValid = true)
      (hpass : passes s.inp.cmd = true) : BlockStep s (issue (formTxq s.inp.cmd) (latchCommand s))
  | refused (hrst : s.inp.rst = false) (hph : s.ph = .idle) (hcmd : s.inp.cmdValid = true)
      (hpass : passes s.inp.cmd = false) : BlockStep s (raise .invalidParam (latchCommand s))
  | completed (hrst : s.inp.rst = false) (hph : s.ph = .wait) (htxc : s.inp.txcValid = true) :
      BlockStep s (complete (wordPayload s.cmd) s)
  | ticked (hrst : s.inp.rst = false) (hph : s.ph = .wait) (htxc : s.inp.txcValid = false) (htick : s.inp.tick = true)
      (htmr : s.tmr.toNat ≤ 98) : BlockStep s { clearPulses s with tmr := s.tmr + 1 }
  | timedOut (hrst : s.inp.rst = false) (hph : s.ph = .wait) (htxc : s.inp.txcValid = false) (htick : s.inp.tick = true)
      (htmr : s.tmr.toNat = 99) : BlockStep s (timeOut s)
  | waited (hrst : s.inp.rst = false) (hph : s.ph = .wait) (htxc : s.inp.txcValid = false)
      (htick : s.inp.tick = false) : BlockStep s (clearPulses s)
  | taken (hrst : s.inp.rst = false) (hph : s.ph = .resp) (hready : s.inp.rspReady = true) :
      BlockStep s { clearPulses s with ph := .idle }
  | held (hrst : s.inp.rst = false) (hph : s.ph = .resp) (hready : s.inp.rspReady = false) :
      BlockStep s (clearPulses s)

/-- Outside a reset, a step with something to run is `exec` of the command in flight. -/
theorem step_idle {s : State} (hrst : s.inp.rst = false) (hph : s.ph = .idle) (hcmd : s.inp.cmdValid = true) :
    step s = advanceNext (exec (decode s.inp.cmd) s) := by
  rw [step_exec hrst (by simp [noCommand, hcmd]), current, hph]

theorem step_wait {s : State} (hrst : s.inp.rst = false) (hph : s.ph = .wait) :
    step s = advanceNext (exec (decode s.cmd) s) := by
  rw [step_exec hrst (by simp [noCommand, hph]), current, hph]

theorem step_resp {s : State} (hrst : s.inp.rst = false) (hph : s.ph = .resp) :
    step s = advanceNext (exec (decode s.cmd) s) := by
  rw [step_exec hrst (by simp [noCommand, hph]), current, hph]

theorem step_accept {s : State} (hrst : s.inp.rst = false) (hph : s.ph = .idle) (hcmd : s.inp.cmdValid = true) :
    step s = .next (advance (accept (passes s.inp.cmd) (formTxq s.inp.cmd) s)) := by
  rw [step_idle hrst hph hcmd, exec_decode, runCommand_idle _ _ _ hph]; rfl

theorem step_await {s : State} (hrst : s.inp.rst = false) (hph : s.ph = .wait) :
    step s = advanceNext (awaitCompletion (wordPayload s.cmd) s) := by
  rw [step_wait hrst hph, exec_decode, runCommand_wait _ _ _ hph]

theorem step_deliver {s : State} (hrst : s.inp.rst = false) (hph : s.ph = .resp) :
    step s = .next (advance (deliver s)) := by
  rw [step_resp hrst hph, exec_decode, runCommand_resp _ _ _ hph]; rfl

/-- Each case is what the step does in it. -/
theorem BlockStep.step_eq {s u : State} (h : BlockStep s u) : step s = .next (advance u) := by
  cases h with
  | reset hrst => exact step_reset hrst
  | noCommand hrst hph hcmd => exact step_noCommand hrst (by simp [Machine.noCommand, hph, hcmd])
  | issued hrst hph hcmd hpass => rw [step_accept hrst hph hcmd, hpass, accept_valid]
  | refused hrst hph hcmd hpass => rw [step_accept hrst hph hcmd, hpass, accept_invalid]
  | completed hrst hph htxc => rw [step_await hrst hph, awaitCompletion_completed _ htxc]; rfl
  | ticked hrst hph htxc htick htmr => rw [step_await hrst hph, awaitCompletion_ticked _ htxc htick htmr]; rfl
  | timedOut hrst hph htxc htick htmr => rw [step_await hrst hph, awaitCompletion_timeOut _ htxc htick htmr]; rfl
  | waited hrst hph htxc htick => rw [step_await hrst hph, awaitCompletion_quiet _ htxc htick]; rfl
  | taken hrst hph hready => rw [step_deliver hrst hph, deliver_ready hready]
  | held hrst hph hready => rw [step_deliver hrst hph, deliver_held hready]

/-- The cases leave out only the step with no next state, a tick past the timeout (log entry 8). -/
theorem blockStep_or_overrun (s : State) :
    (∃ u, BlockStep s u) ∨
    (s.inp.rst = false ∧ s.ph = .wait ∧ s.inp.txcValid = false ∧ s.inp.tick = true ∧ 100 ≤ s.tmr.toNat) := by
  cases hrst : s.inp.rst with
  | true => exact .inl ⟨_, .reset hrst⟩
  | false =>
    cases hph : s.ph with
    | idle =>
      cases hcmd : s.inp.cmdValid with
      | false => exact .inl ⟨_, .noCommand hrst hph hcmd⟩
      | true =>
        cases hpass : passes s.inp.cmd with
        | true => exact .inl ⟨_, .issued hrst hph hcmd hpass⟩
        | false => exact .inl ⟨_, .refused hrst hph hcmd hpass⟩
    | wait =>
      cases htxc : s.inp.txcValid with
      | true => exact .inl ⟨_, .completed hrst hph htxc⟩
      | false =>
        cases htick : s.inp.tick with
        | false => exact .inl ⟨_, .waited hrst hph htxc htick⟩
        | true =>
          rcases Nat.lt_trichotomy s.tmr.toNat 99 with htmr | htmr | htmr
          · exact .inl ⟨_, .ticked hrst hph htxc htick (by omega)⟩
          · exact .inl ⟨_, .timedOut hrst hph htxc htick htmr⟩
          · exact .inr ⟨rfl, rfl, rfl, rfl, htmr⟩
    | resp =>
      cases hready : s.inp.rspReady with
      | true => exact .inl ⟨_, .taken hrst hph hready⟩
      | false => exact .inl ⟨_, .held hrst hph hready⟩

/-- A step answers a next state exactly by one of the cases, and then the next sample comes to the ports. -/
theorem step_eq_next_iff {s t : State} : step s = .next t ↔ ∃ u, BlockStep s u ∧ t = advance u := by
  refine ⟨fun h => ?_, fun ⟨u, hu, ht⟩ => ht ▸ hu.step_eq⟩
  rcases blockStep_or_overrun s with ⟨u, hu⟩ | ⟨hrst, hph, htxc, htick, htmr⟩
  · exact ⟨u, hu, Host.Outcome.next.inj (h.symm.trans hu.step_eq)⟩
  · rw [step_await hrst hph, awaitCompletion_overrun _ htxc htick htmr] at h
    cases h

/-! ### What every case keeps -/

theorem BlockStep.inp_eq {s u : State} (h : BlockStep s u) : u.inp = s.inp := by
  cases h <;> simp

theorem BlockStep.upcoming_eq {s u : State} (h : BlockStep s u) : u.upcoming = s.upcoming := by
  cases h <;> simp

theorem BlockStep.draw_eq {s u : State} (h : BlockStep s u) : u.draw = s.draw := by
  cases h <;> simp

/-- The register file after any case: what a transaction leaves of it, new free bytes, or the file as it was. -/
theorem BlockStep.per_cases {s u : State} (h : BlockStep s u) :
    u.per = s.per ∨ u.per = memForget s.draw ∨ ∃ st, u.per = peripheralAfter s.txq st s.draw s.per := by
  cases h with
  | reset => rw [resetBlock_per]; split <;> simp
  | completed => exact .inr (.inr ⟨_, complete_per _ s⟩)
  | timedOut => exact .inr (.inl (timeOut_per s))
  | noCommand | issued | refused | ticked | waited | taken | held => exact .inl rfl

theorem BlockStep.file_wf {s u : State} (h : BlockStep s u) (hs : Memory.wf s.per.known) :
    Memory.wf u.per.known := by
  rcases h.per_cases with hp | hp | ⟨st, hp⟩ <;> rw [hp]
  · exact hs
  · exact memForget_wf _
  · exact peripheralAfter_wf _ _ _ hs

/-- A step draws at most one number for new contents, the one above its own draw. -/
theorem BlockStep.file_drawn {s u : State} (h : BlockStep s u) (hs : s.per.base ≤ s.draw) :
    u.per.base ≤ s.draw + 1 := by
  rcases h.per_cases with hp | hp | ⟨st, hp⟩ <;> rw [hp]
  · omega
  · exact (memForget_base _).le
  · rcases peripheralAfter_base s.txq st s.draw s.per with hb | hb <;> omega

/-! ### The invariant is kept (O12)

One lemma per clause of `Inv`; each names the cases in which the clause has to be established anew. -/

/-- A tick counted below the timeout does not wrap (10_state.md R24). -/
theorem tmr_succ_toNat {s : State} (h : s.tmr.toNat ≤ 98) : (s.tmr + 1).toNat = s.tmr.toNat + 1 := by
  rw [BitVec.toNat_add]; exact Nat.mod_eq_of_lt (by simp; omega)

theorem BlockStep.timer_bounded {s u : State} (h : BlockStep s u) (hs : s.tmr.toNat ≤ 100) : u.tmr.toNat ≤ 100 := by
  cases h with
  | reset | issued => exact Nat.zero_le 100
  | timedOut => exact le_refl 100
  | ticked hrst hph htxc htick htmr => exact (tmr_succ_toNat htmr).trans_le (by omega)
  | completed => rwa [complete_tmr]
  | noCommand | refused | waited | taken | held => exact hs

/-- WAIT is entered with the transaction the accepted command forms, and left by the hundredth tick. -/
theorem BlockStep.waiting {s u : State} (h : BlockStep s u)
    (hs : s.ph = .wait → s.txq = formTxq s.cmd ∧ passes s.cmd = true ∧ s.tmr.toNat < 100) :
    u.ph = .wait → u.txq = formTxq u.cmd ∧ passes u.cmd = true ∧ u.tmr.toNat < 100 := by
  intro hu
  cases h with
  | issued hrst hph hcmd hpass => exact ⟨rfl, hpass, by simp⟩
  | ticked hrst hph htxc htick htmr =>
    obtain ⟨htxq, hpass, -⟩ := hs hph
    exact ⟨htxq, hpass, (tmr_succ_toNat htmr).trans_lt (by omega)⟩
  | waited | noCommand | held => exact hs hu
  | completed => simp at hu
  | reset | refused | timedOut | taken => cases hu

/-- RESP is entered with a response that the command in `CMD` can end with. -/
theorem BlockStep.responding {s u : State} (h : BlockStep s u)
    (hs : s.ph = .resp → responseFits (decode s.cmd) s.rsp) :
    u.ph = .resp → responseFits (decode u.cmd) u.rsp := by
  intro hu
  cases h with
  | refused | timedOut => exact responseFits_none nofun
  | completed => rw [complete_cmd]; exact responseFits_complete s.cmd s
  | held | noCommand | waited => exact hs hu
  | ticked hrst hph => exact hs hu
  | reset | issued | taken => cases hu

theorem BlockStep.request_pulse {s u : State} (h : BlockStep s u) :
    u.txqValid = true → u.ph = .wait ∧ u.tmr = 0 := by
  intro hu
  cases h with
  | issued => exact ⟨rfl, rfl⟩
  | completed => simp at hu
  | reset | noCommand | refused | ticked | timedOut | waited | taken | held => cases hu

theorem BlockStep.abort_pulse {s u : State} (h : BlockStep s u) :
    u.txAbort = true → u.ph ≠ .wait ∧ u.txqValid = false := by
  intro hu
  cases h with
  | reset | timedOut => exact ⟨nofun, rfl⟩
  | completed => simp at hu
  | noCommand | issued | refused | ticked | waited | taken | held => cases hu

/-- Settles O12: each case of a step keeps each clause, and the own changes of the step keep the file's form. -/
theorem everyStepKeepsTheInvariant : Obligations.EveryStepKeepsTheInvariant := by
  intro s t hs ht
  obtain ⟨u, hu, rfl⟩ := step_eq_next_iff.1 ht
  exact {
    timer_bounded := hu.timer_bounded hs.timer_bounded
    file_wf := ownChanges_wf _ (hu.file_wf hs.file_wf)
    file_drawn := by
      rw [advance_per, ownChanges_base, advance_draw, hu.draw_eq]
      exact hu.file_drawn hs.file_drawn
    waiting := hu.waiting hs.waiting
    responding := hu.responding hs.responding
    request_pulse := hu.request_pulse
    abort_pulse := hu.abort_pulse }

/-! ### Pulses and the balance of commands (O36, O37) -/

/-- `txq_valid` pulses in the case `issued` alone. -/
theorem BlockStep.txqValid_iff {s u : State} (h : BlockStep s u) :
    u.txqValid = true ↔ accepts s = true ∧ passes s.inp.cmd = true := by
  cases h with
  | issued hrst hph hcmd hpass => simp [accepts, hrst, hph, hcmd, hpass]
  | refused hrst hph hcmd hpass => simp [hpass]
  | reset hrst => simp [accepts, hrst]
  | noCommand hrst hph hcmd => simp [accepts, hcmd]
  | completed hrst hph | ticked hrst hph | timedOut hrst hph | waited hrst hph | taken hrst hph | held hrst hph =>
    simp [accepts, hph]

/-- `tx_abort` pulses in the case `timedOut`, and in the case `reset` when it is taken in WAIT. -/
theorem BlockStep.txAbort_iff {s u : State} (h : BlockStep s u) :
    u.txAbort = true ↔ timesOut s = true ∨ (s.inp.rst = true ∧ s.ph = .wait) := by
  cases h with
  | timedOut hrst hph htxc htick htmr => simp [timesOut, hrst, hph, htxc, htick, htmr]
  | reset hrst => simp [timesOut, hrst]
  | completed hrst hph htxc => simp [timesOut, hrst, htxc]
  | ticked hrst hph htxc htick htmr => simp [timesOut, hrst, show s.tmr.toNat ≠ 99 by omega]
  | waited hrst hph htxc htick => simp [timesOut, hrst, htick]
  | noCommand hrst hph | issued hrst hph | refused hrst hph | taken hrst hph | held hrst hph =>
    simp [timesOut, hrst, hph]

/-- Settles O36. -/
theorem pulsesMarkIssueAndAbort : Obligations.PulsesMarkIssueAndAbort := by
  intro s t ht
  obtain ⟨u, hu, rfl⟩ := step_eq_next_iff.1 ht
  exact ⟨hu.txqValid_iff, hu.txAbort_iff⟩

/-- IDLE is left by an acceptance and entered by a delivery, and no case without a reset moves it otherwise. -/
theorem BlockStep.pending_balance {s u : State} (h : BlockStep s u) (hrst : s.inp.rst = false) :
    pendingCommands u + (delivers s).toNat = pendingCommands s + (accepts s).toNat := by
  cases h with
  | reset hrst' => rw [hrst] at hrst'; cases hrst'
  | noCommand _ hph hcmd => simp [pendingCommands, delivers, accepts, hph, hcmd]
  | issued _ hph hcmd | refused _ hph hcmd => simp [pendingCommands, delivers, accepts, hrst, hph, hcmd]
  | completed _ hph | ticked _ hph | timedOut _ hph | waited _ hph => simp [pendingCommands, delivers, accepts, hph]
  | taken _ hph hready | held _ hph hready => simp [pendingCommands, delivers, accepts, hrst, hph, hready]

/-- Settles O37. -/
theorem oneResponsePerCommand : Obligations.OneResponsePerCommand := by
  intro s t hrst ht
  obtain ⟨u, hu, rfl⟩ := step_eq_next_iff.1 ht
  exact hu.pending_balance hrst

/-! ### Runs from IDLE forget the past (O56) -/

/-- Two blocks agree on the phase and on the latches that are live in it: `CMD`, `TXQ` and `tmr` in WAIT, `RSP` in RESP,
none in IDLE. This is all that a step can carry to the outputs (10_state.md R26). -/
structure SameInFlight (s s' : State) : Prop where
  ph  : s'.ph = s.ph
  cmd : s.ph = .wait → s'.cmd = s.cmd
  txq : s.ph = .wait → s'.txq = s.txq
  tmr : s.ph = .wait → s'.tmr = s.tmr
  rsp : s.ph = .resp → s'.rsp = s.rsp

theorem SameInFlight.of_idle {s s' : State} (h : s.ph = .idle) (h' : s'.ph = .idle) : SameInFlight s s' := by
  constructor <;> simp [h, h']

theorem SameInFlight.of_wait {s s' : State} (h : s.ph = .wait) (h' : s'.ph = .wait) (hcmd : s'.cmd = s.cmd)
    (htxq : s'.txq = s.txq) (htmr : s'.tmr = s.tmr) : SameInFlight s s' := by
  constructor <;> simp [h, h', hcmd, htxq, htmr]

theorem SameInFlight.of_resp {s s' : State} (h : s.ph = .resp) (h' : s'.ph = .resp) (hrsp : s'.rsp = s.rsp) :
    SameInFlight s s' := by
  constructor <;> simp [h, h', hrsp]

theorem SameInFlight.advance {s s' : State} (h : SameInFlight s s') : SameInFlight (advance s) (advance s') :=
  ⟨h.ph, h.cmd, h.txq, h.tmr, h.rsp⟩

/-- With the same sample at the ports, two such blocks take the same case and stay so. -/
theorem BlockStep.mirrored {s s' u : State} (h : BlockStep s u) (hf : SameInFlight s s') (hi : s'.inp = s.inp) :
    ∃ u', BlockStep s' u' ∧ SameInFlight u u' := by
  cases h with
  | reset hrst => exact ⟨_, .reset (hi ▸ hrst), .of_idle rfl rfl⟩
  | noCommand hrst hph hcmd =>
    have hph' := hf.ph.trans hph
    exact ⟨_, .noCommand (hi ▸ hrst) hph' (hi ▸ hcmd), .of_idle hph hph'⟩
  | issued hrst hph hcmd hpass =>
    exact ⟨_, .issued (hi ▸ hrst) (hf.ph.trans hph) (hi ▸ hcmd) (hi ▸ hpass),
      .of_wait rfl rfl (by simp [hi]) (by simp [hi]) rfl⟩
  | refused hrst hph hcmd hpass =>
    exact ⟨_, .refused (hi ▸ hrst) (hf.ph.trans hph) (hi ▸ hcmd) (hi ▸ hpass), .of_resp rfl rfl rfl⟩
  | completed hrst hph htxc =>
    refine ⟨_, .completed (hi ▸ hrst) (hf.ph.trans hph) (hi ▸ htxc), .of_resp (complete_ph _ _) (complete_ph _ _) ?_⟩
    rw [hf.cmd hph, complete_rsp_congr _ hi]
  | ticked hrst hph htxc htick htmr =>
    have hph' := hf.ph.trans hph
    exact ⟨_, .ticked (hi ▸ hrst) hph' (hi ▸ htxc) (hi ▸ htick) (hf.tmr hph ▸ htmr),
      .of_wait hph hph' (hf.cmd hph) (hf.txq hph) (congrArg (· + 1) (hf.tmr hph))⟩
  | timedOut hrst hph htxc htick htmr =>
    exact ⟨_, .timedOut (hi ▸ hrst) (hf.ph.trans hph) (hi ▸ htxc) (hi ▸ htick) (hf.tmr hph ▸ htmr), .of_resp rfl rfl rfl⟩
  | waited hrst hph htxc htick =>
    have hph' := hf.ph.trans hph
    exact ⟨_, .waited (hi ▸ hrst) hph' (hi ▸ htxc) (hi ▸ htick),
      .of_wait hph hph' (hf.cmd hph) (hf.txq hph) (hf.tmr hph)⟩
  | taken hrst hph hready => exact ⟨_, .taken (hi ▸ hrst) (hf.ph.trans hph) (hi ▸ hready), .of_idle rfl rfl⟩
  | held hrst hph hready =>
    have hph' := hf.ph.trans hph
    exact ⟨_, .held (hi ▸ hrst) hph' (hi ▸ hready), .of_resp hph hph' (hf.rsp hph)⟩

theorem SameInFlight.accepts_eq {s s' : State} (hf : SameInFlight s s') (hi : s'.inp = s.inp) :
    accepts s' = accepts s := by
  simp [accepts, hf.ph, hi]

theorem SameInFlight.timesOut_eq {s s' : State} (hf : SameInFlight s s') (hi : s'.inp = s.inp) :
    timesOut s' = timesOut s := by
  by_cases hph : s.ph = .wait
  · simp [timesOut, hf.ph, hi, hf.tmr hph]
  · simp [timesOut, hf.ph, hph]

/-- The steps of two such blocks show the same: the pulses follow from the phase and the inputs, and a request or a
response is shown only where its latch is live. -/
theorem BlockStep.outputs_eq {s s' u u' : State} (h : BlockStep s u) (h' : BlockStep s' u') (hf : SameInFlight s s')
    (hi : s'.inp = s.inp) (hu : SameInFlight u u') : outputs u' = outputs u := by
  have hissue : u'.txqValid = u.txqValid := by
    rw [Bool.eq_iff_iff, h'.txqValid_iff, h.txqValid_iff, hf.accepts_eq hi, hi]
  have habort : u'.txAbort = u.txAbort := by
    rw [Bool.eq_iff_iff, h'.txAbort_iff, h.txAbort_iff, hf.timesOut_eq hi, hi, hf.ph]
  have hready : cmdReady u' = cmdReady u := by rw [cmdReady, cmdReady, hu.ph]
  have hresponse : (if rspValid u' then some (rspPort u') else none) = if rspValid u then some (rspPort u) else none := by
    by_cases hph : u.ph = .resp
    · simp [rspValid, rspPort, hu.ph, hu.rsp hph]
    · simp [rspValid, hu.ph, hph]
  have hrequest : (if u'.txqValid then some (txqPort u') else none) = if u.txqValid then some (txqPort u) else none := by
    by_cases hv : u.txqValid = true
    · simp [hissue, txqPort, hu.txq (h.request_pulse hv).1]
    · simp [hissue, hv]
  simp only [outputs, hready, hresponse, hrequest, habort]

theorem step_mirrored {s s' t : State} (hf : SameInFlight s s') (hi : s'.inp = s.inp) (h : step s = .next t) :
    ∃ t', step s' = .next t' ∧ SameInFlight t t' ∧ outputs t' = outputs t := by
  obtain ⟨u, hu, rfl⟩ := step_eq_next_iff.1 h
  obtain ⟨u', hu', hf'⟩ := hu.mirrored hf hi
  have hout : outputs u' = outputs u := hu.outputs_eq hu' hf hi hf'
  exact ⟨_, hu'.step_eq, hf'.advance, hout⟩

/-- While samples are queued, a step uses up the one at the ports. -/
theorem samples_of_step {s t : State} (h : step s = .next t) (hq : s.upcoming ≠ []) : samples t = s.upcoming := by
  obtain ⟨u, hu, rfl⟩ := step_eq_next_iff.1 h
  obtain ⟨x, xs, hx⟩ := List.exists_cons_of_ne_nil hq
  simp [samples, hu.upcoming_eq, hx]

/-- Two such blocks run alike for as long as the samples last. -/
theorem runSteps_mirrored (n : Nat) {s s' t : State} (hf : SameInFlight s s') (hs : samples s = samples s')
    (hn : n ≤ s.upcoming.length) (h : runSteps (n + 1) s = .next t) :
    ∃ t', runSteps (n + 1) s' = .next t' ∧ outputs t' = outputs t := by
  induction n generalizing s s' with
  | zero =>
    obtain ⟨hinp, -⟩ := List.cons.inj hs
    obtain ⟨v, hv, hrest⟩ := runSteps_succ_cases h
    obtain ⟨v', hv', -, hout⟩ := step_mirrored hf hinp.symm hv
    exact ⟨v', runSteps_succ_of_next hv', Host.Outcome.next.inj hrest ▸ hout⟩
  | succ n ih =>
    obtain ⟨hinp, hup⟩ := List.cons.inj hs
    obtain ⟨v, hv, hrest⟩ := runSteps_succ_cases h
    obtain ⟨v', hv', hfv, -⟩ := step_mirrored hf hinp.symm hv
    have hq : s.upcoming ≠ [] := List.ne_nil_of_length_pos (by omega)
    have hsv := samples_of_step hv hq
    have hsv' : samples v' = s.upcoming := hup ▸ samples_of_step hv' (hup ▸ hq)
    have hlen : v.upcoming.length + 1 = s.upcoming.length := congrArg List.length hsv
    rw [runSteps_succ_of_next hv']
    exact ih hfv (hsv.trans hsv'.symm) (by omega) hrest

/-- Settles O56: two blocks in IDLE have no live latch to differ in. -/
theorem outputsForgetEarlierCommands : Obligations.OutputsForgetEarlierCommands := by
  intro n s s' hs hs' hsamples hpos hn t ht
  obtain ⟨n, rfl⟩ := Nat.exists_eq_succ_of_ne_zero (Nat.one_le_iff_ne_zero.1 hpos)
  exact runSteps_mirrored n (.of_idle hs hs') hsamples (by omega) ht

/-! ### One step, presentation, reset (O6, O7, O8, O10, O11) -/

/-- Settles O6. -/
theorem stepRunsTheCommandInFlight : Obligations.StepRunsTheCommandInFlight := by
  intro s hrst
  refine ⟨step_idle hrst, step_wait hrst, step_resp hrst, fun t ht => ?_⟩
  rw [ht]
  rfl

theorem decodeTableWord_of_lt {w : Nat} (hw : w < 2 ^ 24) :
    decodeTableWord 24 w = some (decode (BitVec.ofNat 24 w)) := by
  rw [decodeTableWord, Nat.mod_eq_of_lt hw, if_pos hw]

theorem withFetchWord_of_lt (s : State) {w : Nat} (hw : w < 2 ^ 24) :
    s.withFetchWord 24 w = presentCommand (BitVec.ofNat 24 w) s := by
  rw [State.withFetchWord, Nat.mod_eq_of_lt hw]

/-- Accepting a command latches its word and leaves IDLE, whether it is issued or refused. -/
theorem accept_latches_and_leaves_idle (valid : Bool) (q : Txq) (s : State) :
    (accept valid q s).cmd = s.inp.cmd ∧ (accept valid q s).ph ≠ .idle := by
  cases valid with
  | true => exact ⟨rfl, nofun⟩
  | false => exact ⟨rfl, nofun⟩

/-- Settles O7. -/
theorem presentedWordIsAcceptedNext : Obligations.PresentedWordIsAcceptedNext := by
  intro s w hw
  rw [withFetchWord_of_lt s hw]
  obtain ⟨hcmd, hph⟩ := accept_latches_and_leaves_idle (passes (BitVec.ofNat 24 w)) (formTxq (BitVec.ofNat 24 w))
    (presentCommand (BitVec.ofNat 24 w) s)
  exact ⟨_, decodeTableWord_of_lt hw, step_idle rfl rfl rfl, _, step_accept rfl rfl rfl, hcmd, hph⟩

/-- Settles O8. -/
theorem stepWithoutACommandChangesNoLatch : Obligations.StepWithoutACommandChangesNoLatch :=
  fun _ hrst hph hcmd => (BlockStep.noCommand hrst hph hcmd).step_eq

/-- Settles O10. -/
theorem resetLeavesTheBlockIdle : Obligations.ResetLeavesTheBlockIdle :=
  ⟨rfl, rfl, rfl, rfl, rfl, rfl⟩

/-- Settles O11: nothing is in flight, nothing pulses, and the file lists no byte. -/
theorem resetStateMeetsTheInvariant : Obligations.ResetStateMeetsTheInvariant where
  timer_bounded := Nat.zero_le 100
  file_wf := reset_file_wf
  file_drawn := le_refl 0
  waiting := nofun
  responding := nofun
  request_pulse := nofun
  abort_pulse := nofun

end Sys2Proof.Machine

/-! PROOFS. Where transactions go and what their outcomes do to the register file (20_memory.md), and the records at the
ports as sums of their fields (30_encoding.md). -/

namespace Sys2Proof.Machine

/-! ### The register multiplexer (O39, O40) -/

/-- `FSEL` is the top three bits of the word (30_encoding.md R80). -/
theorem fieldSel_wordField (cw : CommandWord) : fieldSel (wordField cw) = cw.extractLsb' 21 3 := by
  have h23 : cw.getLsbD 23 = (cw.extractLsb' 21 3).getLsbD 2 := by simp
  have h22 : cw.getLsbD 22 = (cw.extractLsb' 21 3).getLsbD 1 := by simp
  have h21 : cw.getLsbD 21 = (cw.extractLsb' 21 3).getLsbD 0 := by simp
  rw [wordField, h23, h22, h21]
  generalize cw.extractLsb' 21 3 = sel
  revert sel
  decide

theorem fieldSel_wordField_toNat (cw : CommandWord) : (fieldSel (wordField cw)).toNat = cw.toNat / 2 ^ 21 := by
  rw [fieldSel_wordField, BitVec.extractLsb'_toNat, Nat.shiftRight_eq_div_pow]
  exact Nat.mod_eq_of_lt (by omega)

/-- The arithmetic of 20_memory.md R52: the address skips the registers 1 and 2. -/
theorem regAddr_toNat (f : Field) :
    (regAddr f).toNat = if (fieldSel f).toNat = 0 then 0 else (fieldSel f).toNat + 2 := by
  cases f <;> rfl

@[simp] theorem formTxq_b0 (cw : CommandWord) : (formTxq cw).b0 = regAddr (wordField cw) := by
  cases hw : wordIsSet cw <;> simp [formTxq, hw]

@[simp] theorem formTxq_dev (cw : CommandWord) : (formTxq cw).dev = 0x68 := by
  cases hw : wordIsSet cw <;> simp [formTxq, hw]

/-- Settles O39: a word that passes issues its request, to the address the multiplexer gives its `FSEL`. -/
theorem multiplexerSendsTheFieldsAddress : Obligations.MultiplexerSendsTheFieldsAddress := by
  intro s cw hph hpass
  have hexec : exec (decode cw) s = .next (issue (formTxq cw) (latchCommand s)) := by
    rw [exec_decode, runCommand_idle _ _ _ hph, hpass, accept_valid]
  refine ⟨_, hexec, rfl, ?_⟩
  rw [issue_txq, formTxq_b0, regAddr_toNat, fieldSel_wordField_toNat]

/-- Where `txq_valid` pulses, the request is the one that the command word at the port forms. -/
theorem BlockStep.request_eq {s u : State} (h : BlockStep s u) (hv : u.txqValid = true) :
    u.txq = formTxq s.inp.cmd := by
  cases h with
  | issued => rfl
  | completed => simp at hv
  | reset | noCommand | refused | ticked | timedOut | waited | taken | held => cases hv

theorem step_request_eq {s t : State} (h : step s = .next t) (hv : t.txqValid = true) : t.txq = formTxq s.inp.cmd := by
  obtain ⟨u, hu, rfl⟩ := step_eq_next_iff.1 h
  exact hu.request_eq hv

/-- Settles O40: the address comes from the multiplexer, whose eight outputs avoid the others. -/
theorem onlyTheEightRegistersAreAddressed : Obligations.OnlyTheEightRegistersAreAddressed := by
  intro s t ht hv
  rw [step_request_eq ht hv, formTxq_dev, formTxq_b0]
  refine ⟨rfl, ?_⟩
  cases wordField s.inp.cmd <;> decide

/-! ### The byte of a set (O41) -/

theorem tensMask_lt (w : Nat) : tensMask w < 2 ^ (w + 4) := by
  have hpos : 0 < 2 ^ w := Nat.two_pow_pos w
  rw [tensMask, Nat.shiftLeft_eq, Nat.shiftLeft_eq, Nat.pow_add]
  omega

/-- `w` tens bits above four units bits (41_bcd_codec.md R142). -/
theorem bcdEncode_lt (v w : Nat) : bcdEncode v w < 2 ^ (w + 4) := by
  have hunits : v % 10 < 2 ^ (w + 4) :=
    calc v % 10 < 2 ^ 4 := by omega
      _ ≤ 2 ^ (w + 4) := Nat.pow_le_pow_right (by decide) (by omega)
  exact Nat.or_lt_two_pow (Nat.and_lt_two_pow _ (tensMask_lt w)) hunits

/-- A number of `k` bits leaves the bits from `k` up of its byte 0. -/
theorem ofNat_and_highBits {n k : Nat} (h : n < 2 ^ k) : (BitVec.ofNat 8 n : Byte) &&& (BitVec.allOnes 8 <<< k) = 0 := by
  ext j hj
  by_cases hjk : j < k
  · simp [hjk]
  · have hbit : n.testBit j = false :=
      Nat.testBit_lt_two_pow (h.trans_le (Nat.pow_le_pow_right (by decide) (by omega)))
    have hbyte : (BitVec.ofNat 8 n)[j] = false := by
      rw [BitVec.getElem_eq_testBit_toNat, BitVec.toNat_ofNat, Nat.testBit_mod_two_pow, hbit, Bool.and_false]
    simp [hbyte]

/-- Bit 6 of CONTROL1 is written as 0 (42_bitfield_codec.md R172). -/
theorem ctlEncode_and_bit6 (c : ControlState) : ctlEncode c &&& 0x40 = 0 := by
  have hbit : (ctlEncode c).getLsbD 6 = false := by simp [ctlEncode]
  exact (BitVec.and_twoPow _ 6).trans (if_neg (Bool.eq_false_iff.1 hbit))

/-- Both representations of the hour fit in the six bits that the hours register names (42_bitfield_codec.md R175). -/
theorem hoursEncode_and_highBits (mode : HourMode) (ampm : Bool) (h12 h24 : Nat) :
    hoursEncode mode ampm h12 h24 &&& (BitVec.allOnes 8 <<< 6) = 0 := by
  cases mode with
  | mode24 => exact ofNat_and_highBits (bcdEncode_lt h24 2)
  | mode12 =>
    have hflag : ampm.toNat <<< 5 < 2 ^ 6 := by cases ampm <;> decide
    have hhour : bcdEncode h12 1 < 2 ^ 6 := (bcdEncode_lt h12 1).trans (by decide)
    exact ofNat_and_highBits (Nat.or_lt_two_pow hflag hhour)

/-- The encoder of a field writes each bit that the field does not name as 0 (20_memory.md R60). -/
theorem encodeByte_and_unnamedBits (cw : CommandWord) :
    encodeByte cw &&& unnamedBits (regAddr (wordField cw)).toNat = 0 := by
  unfold encodeByte
  cases wordField cw with
  | control => exact ctlEncode_and_bit6 _
  | seconds | minutes => exact ofNat_and_highBits (bcdEncode_lt _ 3)
  | hours => exact hoursEncode_and_highBits _ _ _ _
  | day => exact ofNat_and_highBits (bcdEncode_lt _ 2)
  | weekday => exact ofNat_and_highBits (k := 3) (Nat.and_lt_two_pow _ (by decide))
  | month => exact ofNat_and_highBits (bcdEncode_lt _ 1)
  | year => exact BitVec.and_zero

/-- The request of a set is a plain write (20_memory.md R57, R60). -/
theorem formTxq_of_set {cw : CommandWord} (h : isGet (decode cw) = false) :
    formTxq cw = ⟨.writeOnly, 0x68, regAddr (wordField cw), encodeByte cw⟩ := by
  rw [isGet_decode, Bool.not_eq_false'] at h
  rw [formTxq, if_pos h]

/-- The request of a get is a read of one byte (20_memory.md R56). -/
theorem formTxq_of_get {cw : CommandWord} (h : isGet (decode cw) = true) :
    formTxq cw = ⟨.writeThenRead, 0x68, regAddr (wordField cw), 0⟩ := by
  rw [isGet_decode, Bool.not_eq_true'] at h
  rw [formTxq, h, if_neg Bool.false_ne_true]

/-- Settles O41: the request is formed from the word at the port, and its encoder sets no other bit. -/
theorem setsWriteUnnamedBitsAsZero : Obligations.SetsWriteUnnamedBitsAsZero := by
  intro s t ht hv hset
  have htxq := step_request_eq ht hv
  refine ⟨?_, htxq, ?_⟩ <;> rw [htxq, formTxq_of_set hset]
  exact encodeByte_and_unnamedBits _

/-! ### What an outcome does to the register file (O42) -/

theorem peripheralAfter_ok_of_write {q : Txq} (hk : q.kind = .writeOnly) (n : Nat) (f : RegFile) :
    peripheralAfter q .ok n f = memWrite f q.b0.toNat q.b1 := by
  simp [peripheralAfter, hk]

theorem peripheralAfter_ok_of_read {q : Txq} (hk : q.kind = .writeThenRead) (n : Nat) (f : RegFile) :
    peripheralAfter q .ok n f = f := by
  simp [peripheralAfter, hk]

theorem peripheralAfter_invalidArg (q : Txq) (n : Nat) (f : RegFile) : peripheralAfter q .invalidArg n f = f := rfl

theorem peripheralAfter_failed {st : TxStatus} (h : st = .fail ∨ st = .other) (q : Txq) (n : Nat) (f : RegFile) :
    peripheralAfter q st n f = memForget n := by
  rcases h with rfl | rfl <;> rfl

/-- The register file after a completion step in which the peripheral changes nothing of its own. -/
theorem per_of_completed_step {s t : State} (hrst : s.inp.rst = false) (hown : s.inp.own = []) (hph : s.ph = .wait)
    (htxc : s.inp.txcValid = true) (ht : step s = .next t) :
    t.per = peripheralAfter s.txq (completion s).status s.draw s.per := by
  have hstep := (BlockStep.completed hrst hph htxc).step_eq
  obtain rfl := Host.Outcome.next.inj (ht.symm.trans hstep)
  rw [advance_per, complete_inp, hown, complete_per]
  rfl

/-- Settles O42: in WAIT the transaction is the one its command forms, so its kind tells a set from a get. -/
theorem outcomeDecidesTheRegisterFile : Obligations.OutcomeDecidesTheRegisterFile := by
  intro s t hinv hrst hown hph htxc ht
  obtain ⟨htxq, -, -⟩ := hinv.waiting hph
  rw [per_of_completed_step hrst hown hph htxc ht]
  refine ⟨fun hst hset a => ?_, fun hst hget a => ?_, fun hst a => ?_, fun hst => ?_⟩
  · have hkind : s.txq.kind = .writeOnly := by rw [htxq, formTxq_of_set hset]
    rw [hst, peripheralAfter_ok_of_write hkind, memRead_memWrite]
  · have hkind : s.txq.kind = .writeThenRead := by rw [htxq, formTxq_of_get hget]
    rw [hst, peripheralAfter_ok_of_read hkind]
  · rw [hst, peripheralAfter_invalidArg]
  · rw [peripheralAfter_failed hst]
    exact ⟨Nat.lt_succ_of_le hinv.file_drawn, memRead_memForget s.draw⟩

/-! ### The packed records (O5) -/

/-- A field that fits is worth its value times the weight of its lowest bit. -/
theorem putField_toNat {n k m : Nat} (x : BitVec m) (h : k + m ≤ n) : (putField n k x).toNat = x.toNat * 2 ^ k := by
  have hx : x.toNat * 2 ^ k < 2 ^ n :=
    calc x.toNat * 2 ^ k < 2 ^ m * 2 ^ k := Nat.mul_lt_mul_of_pos_right x.isLt (Nat.two_pow_pos k)
      _ = 2 ^ (k + m) := by rw [Nat.add_comm, Nat.pow_add]
      _ ≤ 2 ^ n := Nat.pow_le_pow_right (by decide) h
  have hm : x.toNat < 2 ^ n := x.isLt.trans_le (Nat.pow_le_pow_right (by decide) (by omega))
  rw [putField, BitVec.toNat_shiftLeft, BitVec.toNat_setWidth, Nat.mod_eq_of_lt hm, Nat.shiftLeft_eq, Nat.mod_eq_of_lt hx]

/-- `y` holds the number `v` in its lowest `k` bits, and zeros above. -/
structure LowBits {n : Nat} (y : BitVec n) (k v : Nat) : Prop where
  toNat_eq : y.toNat = v
  lt : v < 2 ^ k

theorem LowBits.putField_zero {n m : Nat} (x : BitVec m) (h : m ≤ n) : LowBits (putField n 0 x) m x.toNat :=
  ⟨by rw [putField_toNat x (by omega), Nat.pow_zero, Nat.mul_one], x.isLt⟩

theorem LowBits.putBit_zero {n : Nat} (b : Bool) (h : 0 < n) : LowBits (putBit n 0 b) 1 b.toNat :=
  BitVec.toNat_ofBool b ▸ LowBits.putField_zero (BitVec.ofBool b) h

/-- A field put right above the bits of `y` adds its value times its weight. -/
theorem LowBits.putField_or {n k m v : Nat} {y : BitVec n} (hy : LowBits y k v) (x : BitVec m) (h : k + m ≤ n) :
    LowBits (putField n k x ||| y) (k + m) (x.toNat * 2 ^ k + v) where
  toNat_eq := by
    rw [BitVec.toNat_or, putField_toNat x h, hy.toNat_eq, ← Nat.shiftLeft_eq, Nat.shiftLeft_add_eq_or_of_lt hy.lt]
  lt :=
    calc x.toNat * 2 ^ k + v < (x.toNat + 1) * 2 ^ k := by have := hy.lt; rw [Nat.succ_mul]; omega
      _ ≤ 2 ^ m * 2 ^ k := Nat.mul_le_mul_right _ x.isLt
      _ = 2 ^ (k + m) := by rw [Nat.add_comm, Nat.pow_add]

theorem LowBits.putBit_or {n k v : Nat} {y : BitVec n} (hy : LowBits y k v) (b : Bool) (h : k < n) :
    LowBits (putBit n k b ||| y) (k + 1) (b.toNat * 2 ^ k + v) :=
  BitVec.toNat_ofBool b ▸ hy.putField_or (BitVec.ofBool b) h

theorem kindCode_toNat (k : TxKind) : (kindCode k).toNat = if k = .writeThenRead then 1 else 0 := by
  cases k <;> rfl

theorem packTxq_toNat (t : Txq) :
    (packTxq t).toNat =
      (kindCode t.kind).toNat * 2 ^ 23 + (t.dev.toNat * 2 ^ 16 + (t.b0.toNat * 2 ^ 8 + t.b1.toNat)) := by
  have hfields := (((LowBits.putField_zero (n := 24) t.b1 (by decide)).putField_or t.b0 (by decide)).putField_or
    t.dev (by decide)).putField_or (kindCode t.kind) (by decide)
  rw [packTxq, BitVec.or_assoc, BitVec.or_assoc]
  exact hfields.toNat_eq

/-- The status by its number (30_encoding.md R87). -/
theorem statusOfBits_eq_ite (b : BitVec 2) :
    statusOfBits (b.getLsbD 1) (b.getLsbD 0) =
      if b.toNat = 0 then .ok else if b.toNat = 1 then .fail else if b.toNat = 2 then .invalidArg else .other := by
  revert b; decide

theorem unpackCompletion_eq (txc : BitVec 10) :
    unpackCompletion txc =
      ⟨if txc.toNat / 256 = 0 then .ok else if txc.toNat / 256 = 1 then .fail
        else if txc.toNat / 256 = 2 then .invalidArg else .other, BitVec.ofNat 8 txc.toNat⟩ := by
  have hcode : (txc.extractLsb' 8 2).toNat = txc.toNat / 256 := by
    rw [BitVec.extractLsb'_toNat, Nat.shiftRight_eq_div_pow]
    exact Nat.mod_eq_of_lt (by omega)
  have hstatus := statusOfBits_eq_ite (txc.extractLsb' 8 2)
  rw [hcode, BitVec.getLsbD_extractLsb', BitVec.getLsbD_extractLsb'] at hstatus
  rw [unpackCompletion]
  exact congrArg₂ Completion.mk hstatus rfl

/-- The result code stands above the 17 payload bits (30_encoding.md R83). -/
theorem packResponse_toNat (r : Response) :
    (packResponse r).toNat = (resultCode r.result).toNat * 2 ^ 17 + (packPayload r.payload).toNat := by
  have hpayload := LowBits.putField_zero (n := 19) (packPayload r.payload) (by decide)
  exact (hpayload.putField_or (resultCode r.result) (by decide)).toNat_eq

theorem flagsToBits_toNat (cap stop sr mode sie aie cie : Bool) :
    (flagsToBits ⟨cap, stop, sr, mode, sie, aie, cie⟩).toNat =
      64 * cap.toNat + 32 * stop.toNat + 16 * sr.toNat + 8 * mode.toNat + 4 * sie.toNat + 2 * aie.toNat + cie.toNat := by
  have hlow := ((LowBits.putBit_zero (n := 7) cie (by decide)).putBit_or aie (by decide)).putBit_or sie (by decide)
  have hbits := (((hlow.putBit_or mode (by decide)).putBit_or sr (by decide)).putBit_or stop (by decide)).putBit_or
    cap (by decide)
  simp only [flagsToBits, BitVec.or_assoc]
  rw [hbits.toNat_eq]
  omega

theorem packPayload_flags_toNat (c : ControlState) : (packPayload (some (.flags c))).toNat = (flagsToBits c).toNat :=
  (BitVec.toNat_setWidth _ _).trans (Nat.mod_eq_of_lt (by omega))

theorem packPayload_value_toNat (v : Byte) : (packPayload (some (.value v))).toNat = v.toNat :=
  (BitVec.toNat_setWidth _ _).trans (Nat.mod_eq_of_lt (by omega))

theorem packPayload_hours_toNat (ampm : Bool) (h12 h24 : Byte) :
    (packPayload (some (.hours ampm h12 h24))).toNat =
      (if ampm then 2 ^ 16 else 0) + h12.toNat * 2 ^ 8 + h24.toNat := by
  have hhours := (LowBits.putField_zero (n := 17) h24 (by decide)).putField_or h12 (by decide)
  rw [packPayload, BitVec.or_assoc, (hhours.putBit_or ampm (by decide)).toNat_eq]
  cases ampm <;> simp [Nat.add_assoc]

/-- The result codes of 60_exceptions.md R200 as numbers. -/
theorem resultCode_toNat_of_mem {r : Result} {code : Nat}
    (h : (r, code) ∈ [(Result.success, 0), (.commFailure, 1), (.invalidParam, 2)]) : (resultCode r).toNat = code := by
  cases r <;> simpa [resultCode, eq_comm] using h

theorem resultCode_toNat_ne_three (r : Result) : (resultCode r).toNat ≠ 3 := by
  cases r <;> decide

/-- Settles O5: each record holds its fields one above the other. -/
theorem packedRecordsFollowTheirLayouts : Obligations.PackedRecordsFollowTheirLayouts := by
  refine ⟨fun t => ?_, fun t => ⟨fun hk => ?_, fun hk => ?_⟩, unpackCompletion_eq, fun r code hcode => ?_, fun r => ?_⟩
  · rw [packTxq_toNat, kindCode_toNat]
    cases t.kind <;> simp [Nat.add_assoc]
  · simp [bytesWritten, bytesRead, hk]
  · simp [bytesWritten, bytesRead, hk]
  · simp only [packResponse_toNat, resultCode_toNat_of_mem hcode]
    refine ⟨fun ampm h12 h24 => ?_, fun v => ?_, fun cap stop sr mode sie aie cie => ?_, Nat.add_zero _⟩
    · rw [packPayload_hours_toNat]; omega
    · rw [packPayload_value_toNat]
    · rw [packPayload_flags_toNat, flagsToBits_toNat]; omega
  · have hcode := resultCode_toNat_ne_three r.result
    rw [packResponse_toNat]
    omega

end Sys2Proof.Machine

/-! PROOFS. The command word (30_encoding.md R80 to R82, R89, R93): its fields read back, the decoder after the encoder, the
bits a command reads, the assembler's sums; and what the end of a command answers (R83, R84), with no step that stops. -/

namespace Sys2Proof.Machine

/-! ### The fields of an assembled word (30_encoding.md R80) -/

theorem LowBits.mono {n k k' v : Nat} {y : BitVec n} (hy : LowBits y k v) (h : k ≤ k') : LowBits y k' v :=
  ⟨hy.toNat_eq, hy.lt.trans_le (Nat.pow_le_pow_right (by decide) h)⟩

section AssembledFields

variable (f : Field) (wr mode ampm : Bool) (arg1 arg0 : Byte)

/-- The word is the sum of its fields; bits 19:18 hold none. -/
theorem assembleWord_toNat :
    (assembleWord f wr mode ampm arg1 arg0).toNat =
      (fieldSel f).toNat * 2 ^ 21 + (wr.toNat * 2 ^ 20 + (mode.toNat * 2 ^ 17 + (ampm.toNat * 2 ^ 16 +
        (arg1.toNat * 2 ^ 8 + arg0.toNat)))) := by
  have hargs := (LowBits.putField_zero (n := 24) arg0 (by decide)).putField_or arg1 (by decide)
  have hlow := (hargs.putBit_or ampm (by decide)).putBit_or mode (by decide)
  have hword := ((hlow.mono (k' := 20) (by decide)).putBit_or wr (by decide)).putField_or (fieldSel f) (by decide)
  simp only [assembleWord, BitVec.or_assoc]
  exact hword.toNat_eq

@[simp] theorem wordField_assembleWord : wordField (assembleWord f wr mode ampm arg1 arg0) = f := by
  cases f <;> simp [wordField, assembleWord, fieldSel]

@[simp] theorem wordIsSet_assembleWord : wordIsSet (assembleWord f wr mode ampm arg1 arg0) = wr := by
  simp [wordIsSet, assembleWord]

@[simp] theorem wordMode_assembleWord :
    wordMode (assembleWord f wr mode ampm arg1 arg0) = if mode then .mode12 else .mode24 := by
  simp [wordMode, assembleWord]

@[simp] theorem wordAmPm_assembleWord : wordAmPm (assembleWord f wr mode ampm arg1 arg0) = ampm := by
  simp [wordAmPm, assembleWord]

@[simp] theorem wordArg1_assembleWord : wordArg1 (assembleWord f wr mode ampm arg1 arg0) = arg1.toNat := by
  rw [wordArg1, BitVec.extractLsb'_toNat, assembleWord_toNat, Nat.shiftRight_eq_div_pow]
  omega

@[simp] theorem wordArg0_assembleWord : wordArg0 (assembleWord f wr mode ampm arg1 arg0) = arg0.toNat := by
  rw [wordArg0, BitVec.extractLsb'_toNat, assembleWord_toNat, Nat.shiftRight_zero]
  omega

@[simp] theorem wordFlags_assembleWord :
    wordFlags (assembleWord f wr mode ampm arg1 arg0) = flagsOfBits (arg0.setWidth 7) := by
  refine congrArg flagsOfBits (BitVec.eq_of_toNat_eq ?_)
  rw [BitVec.extractLsb'_toNat, assembleWord_toNat, Nat.shiftRight_zero, BitVec.toNat_setWidth]
  omega

end AssembledFields

/-! ### The decoder after the encoder (O1) -/

theorem fitsOperand_of_le {v : Nat} (h : v ≤ 255) : fitsOperand v = true := decide_eq_true (Nat.lt_succ_of_le h)

theorem ofNat_toNat_of_fitsOperand {v : Nat} (h : fitsOperand v = true) : (BitVec.ofNat 8 v).toNat = v :=
  Nat.mod_eq_of_lt (of_decide_eq_true h)

/-- The decoder reads each operand from where the encoder put it. -/
theorem decode_encode {i : Instr} (h : i.wellFormed = true) : decode (encode i) = i := by
  cases i with
  | getControl | getSeconds | getMinutes | getHours | getDay | getWeekday | getMonth | getYear =>
    simp [decode, encode, getWord]
  | setControl cs => simp [decode, encode, setWord, flagsOfBits_flagsToBits]
  | setHours mode ampm h12 h24 =>
    obtain ⟨h12fits, h24fits⟩ := Bool.and_eq_true_iff.1 h
    cases mode <;>
      simp [decode, encode, ofNat_toNat_of_fitsOperand h12fits, ofNat_toNat_of_fitsOperand h24fits, -BitVec.toNat_ofNat]
  | setSeconds v | setMinutes v | setDay v | setWeekday v | setMonth v | setYear v =>
    simp only [decode, encode, setWord, wordField_assembleWord, wordIsSet_assembleWord, wordArg0_assembleWord,
      ofNat_toNat_of_fitsOperand h]

/-- Settles O1. -/
theorem decodeOfEncodeIsTheCommand : Obligations.DecodeOfEncodeIsTheCommand := fun _ h => decode_encode h

/-- Settles O3: each word is a literal. -/
theorem sampleWordsDecode : Obligations.SampleWordsDecode := by
  refine ⟨?_, ?_, ?_, ?_, ?_, ?_⟩ <;> decide

/-! ### The bits a command reads (O2; 30_encoding.md R89) -/

/-- Words that agree under a mask agree in every field that the mask keeps whole. -/
theorem extractLsb'_eq_of_and_eq {cw cw' m : CommandWord} (h : cw &&& m = cw' &&& m) {k n : Nat}
    (hm : m.extractLsb' k n = BitVec.allOnes n) : cw.extractLsb' k n = cw'.extractLsb' k n := by
  have hk := congrArg (BitVec.extractLsb' k n) h
  rwa [BitVec.extractLsb'_and, BitVec.extractLsb'_and, hm, BitVec.and_allOnes, BitVec.and_allOnes] at hk

/-- The single bit, as the field of width 1. -/
theorem getLsbD_eq_of_and_eq {cw cw' m : CommandWord} (h : cw &&& m = cw' &&& m) {k : Nat}
    (hm : m.extractLsb' k 1 = BitVec.allOnes 1) : cw.getLsbD k = cw'.getLsbD k := by
  have hbit := congrArg (BitVec.getLsbD · 0) (extractLsb'_eq_of_and_eq h hm)
  simpa using hbit

theorem wordArg0_eq_of_and_eq {cw cw' m : CommandWord} (h : cw &&& m = cw' &&& m)
    (hm : m.extractLsb' 0 8 = BitVec.allOnes 8) : wordArg0 cw' = wordArg0 cw :=
  congrArg BitVec.toNat (extractLsb'_eq_of_and_eq h hm).symm

theorem wordMode_eq_of_and_eq {cw cw' m : CommandWord} (h : cw &&& m = cw' &&& m)
    (hm : m.extractLsb' 17 1 = BitVec.allOnes 1) : wordMode cw' = wordMode cw := by
  rw [wordMode, wordMode, getLsbD_eq_of_and_eq h hm]

/-- Every command reads the opcode. -/
theorem readBits_opcode (cw : CommandWord) : (readBits cw).extractLsb' 20 4 = BitVec.allOnes 4 := by
  unfold readBits
  cases wordField cw <;> cases wordIsSet cw
  case hours.true => cases cw.getLsbD 17 <;> decide
  all_goals (dsimp only; decide)

theorem wordField_eq_of_opcode {cw cw' : CommandWord} (h : cw.extractLsb' 20 4 = cw'.extractLsb' 20 4) :
    wordField cw' = wordField cw := by
  have hsel (k : Nat) (hk : k < 4) : cw'.getLsbD (20 + k) = cw.getLsbD (20 + k) := by
    simpa [hk] using congrArg (BitVec.getLsbD · k) h.symm
  rw [wordField, wordField, hsel 3 (by decide), hsel 2 (by decide), hsel 1 (by decide)]

theorem wordIsSet_eq_of_opcode {cw cw' : CommandWord} (h : cw.extractLsb' 20 4 = cw'.extractLsb' 20 4) :
    wordIsSet cw' = wordIsSet cw := by
  simpa [wordIsSet] using congrArg (BitVec.getLsbD · 0) h.symm

/-- The validator and the encoder of a set look at nothing but the bits it reads. -/
theorem validWord_and_encodeByte_eq {cw cw' : CommandWord} (h : cw &&& readBits cw = cw' &&& readBits cw)
    (hw : wordIsSet cw = true) (hf : wordField cw' = wordField cw) :
    validWord cw' = validWord cw ∧ encodeByte cw' = encodeByte cw := by
  unfold validWord encodeByte
  cases hfield : wordField cw with
  | control =>
    simp only [readBits, hfield, hw] at h
    have hflags : wordFlags cw' = wordFlags cw := congrArg flagsOfBits (extractLsb'_eq_of_and_eq h rfl).symm
    simp [hf, hfield, hflags]
  | hours =>
    simp only [readBits, hfield, hw] at h
    cases hbit : cw.getLsbD 17 with
    | false =>
      rw [hbit, if_neg Bool.false_ne_true] at h
      have hmode : wordMode cw = .mode24 := by rw [wordMode, hbit]; rfl
      have hmode' := (wordMode_eq_of_and_eq h rfl).trans hmode
      have harg0 := wordArg0_eq_of_and_eq h rfl
      simp [hf, hfield, hmode, hmode', harg0, hoursEncode]
    | true =>
      rw [hbit, if_pos rfl] at h
      have hmode : wordMode cw = .mode12 := by rw [wordMode, hbit]; rfl
      have hmode' := (wordMode_eq_of_and_eq h rfl).trans hmode
      have hampm : wordAmPm cw' = wordAmPm cw := (getLsbD_eq_of_and_eq h rfl).symm
      have harg1 : wordArg1 cw' = wordArg1 cw :=
        congrArg BitVec.toNat (extractLsb'_eq_of_and_eq h rfl).symm
      simp [hf, hfield, hmode, hmode', hampm, harg1, hoursEncode]
  | seconds | minutes | day | weekday | month | year =>
    simp only [readBits, hfield, hw] at h
    have harg0 := wordArg0_eq_of_and_eq h rfl
    simp [hf, hfield, harg0]

/-- Settles O2: the tables by `FSEL` drive the command, and look only at the bits it reads. -/
theorem ignoredBitsDoNotChangeTheEffect : Obligations.IgnoredBitsDoNotChangeTheEffect := by
  intro cw cw' s h
  have hopcode := extractLsb'_eq_of_and_eq h (readBits_opcode cw)
  have hf := wordField_eq_of_opcode hopcode
  have hset := wordIsSet_eq_of_opcode hopcode
  cases hw : wordIsSet cw with
  | false => rw [exec_decode_get hw, exec_decode_get (hset.trans hw), hf]
  | true =>
    obtain ⟨hvalid, hbyte⟩ := validWord_and_encodeByte_eq h hw hf
    rw [exec_decode_set hw, exec_decode_set (hset.trans hw), hf, hvalid, hbyte]

/-! ### The assembler's sums (O4; 30_encoding.md R93) -/

theorem flagsToBits_flagsOfBits (b : BitVec 7) : flagsToBits (flagsOfBits b) = b := by
  revert b; decide

theorem setWord_toNat (f : Field) (arg0 : Byte) :
    (setWord f arg0).toNat = ((fieldSel f).toNat * 2 ^ 21 + 2 ^ 20) + arg0.toNat := by
  rw [setWord, assembleWord_toNat]
  simp [Nat.add_assoc]

/-- A sum in its written range is the word of a set: the row's word, and the operand in `ARG0`. -/
theorem setWord_of_assembleSum {f : Field} {base hi x : Nat} {cw : CommandWord} {arg0 : Byte}
    (h : assembleSum base hi x = some cw) (hbase : (fieldSel f).toNat * 2 ^ 21 + 2 ^ 20 = base)
    (harg0 : x ≤ hi → arg0.toNat = x) : setWord f arg0 = cw := by
  obtain ⟨hx, hcw⟩ := Option.ite_none_right_eq_some.1 h
  obtain rfl := Option.some.inj hcw
  apply BitVec.eq_of_toNat_eq
  have hsum : (setWord f arg0).toNat = base + x := by rw [setWord_toNat, hbase, harg0 hx]
  rw [BitVec.toNat_ofNat, ← hsum, Nat.mod_eq_of_lt (setWord f arg0).isLt]

/-- The lines of a set with one 8-bit number. -/
theorem setLine_assembled {f : Field} {base v : Nat} {cw : CommandWord} (h : assembleSum base 255 v = some cw)
    (hbase : (fieldSel f).toNat * 2 ^ 21 + 2 ^ 20 = base) :
    fitsOperand v = true ∧ setWord f (BitVec.ofNat 8 v) = cw := by
  obtain ⟨hv, -⟩ := Option.ite_none_right_eq_some.1 h
  have hfits := fitsOperand_of_le hv
  exact ⟨hfits, setWord_of_assembleSum h hbase fun _ => ofNat_toNat_of_fitsOperand hfits⟩

/-- The line of SET_HOURS in 12-hour mode, whose operands stand in `AMPM` and `ARG1`. -/
theorem assembleWord_hours12 {a v : Nat} (ha : a ≤ 1) (hv : v ≤ 255) :
    assembleWord .hours true true (decide (a = 1)) (BitVec.ofNat 8 v) 0 =
      BitVec.ofNat 24 (0x720000 + a * 0x10000 + v * 0x100) := by
  have hflag : (decide (a = 1)).toNat = a := by
    rcases Nat.le_one_iff_eq_zero_or_eq_one.1 ha with rfl | rfl <;> rfl
  apply BitVec.eq_of_toNat_eq
  have hsel : (fieldSel .hours).toNat = 3 := rfl
  have harg0 : (0 : Byte).toNat = 0 := rfl
  rw [assembleWord_toNat, hsel, harg0, hflag, Bool.toNat_true, BitVec.toNat_ofNat, BitVec.toNat_ofNat]
  omega

/-- A line in its written range stands for a well-formed command, and its sum is that command's word. -/
theorem encode_asmInstr {l : AsmLine} {cw : CommandWord} (h : assemble l = some cw) :
    (asmInstr l).wellFormed = true ∧ encode (asmInstr l) = cw := by
  cases l with
  | getControl | getSeconds | getMinutes | getHours | getDay | getWeekday | getMonth | getYear =>
    exact ⟨rfl, Option.some.inj h⟩
  | setControl cs =>
    refine ⟨rfl, setWord_of_assembleSum h rfl fun hcs => ?_⟩
    rw [flagsToBits_flagsOfBits, BitVec.toNat_setWidth, BitVec.toNat_ofNat]
    omega
  | setControlFlags on =>
    exact ⟨rfl, setWord_of_assembleSum h rfl fun _ => BitVec.toNat_setWidth_of_le (by decide)⟩
  | setSeconds v | setMinutes v | setHoursH24 v | setDay v | setWeekday v | setMonth v | setYear v =>
    exact setLine_assembled h rfl
  | setHoursH12 a v =>
    obtain ⟨⟨ha, hv⟩, hcw⟩ := Option.ite_none_right_eq_some.1 h
    exact ⟨Bool.and_eq_true_iff.2 ⟨fitsOperand_of_le hv, rfl⟩, (assembleWord_hours12 ha hv).trans (Option.some.inj hcw)⟩

/-- Settles O4: the decoder undoes the encoder on the word that the line assembles to. -/
theorem assembledLinesDecode : Obligations.AssembledLinesDecode := by
  intro l cw h
  obtain ⟨hwf, rfl⟩ := encode_asmInstr h
  exact ⟨decode_encode hwf, rfl⟩

/-! ### No state that meets the invariant stops (O13; 30_encoding.md R89) -/

/-- Below the timeout a step in WAIT has a next state. -/
theorem awaitCompletion_next (payload : Byte → Option Payload) {s : State} (h : s.tmr.toNat < 100) :
    ∃ t, awaitCompletion payload s = .next t := by
  cases htxc : s.inp.txcValid with
  | true => exact ⟨_, awaitCompletion_completed payload htxc⟩
  | false =>
    cases htick : s.inp.tick with
    | false => exact ⟨_, awaitCompletion_quiet payload htxc htick⟩
    | true =>
      rcases Nat.lt_succ_iff_lt_or_eq.1 h with htmr | htmr
      · exact ⟨_, awaitCompletion_ticked payload htxc htick (Nat.le_of_lt_succ htmr)⟩
      · exact ⟨_, awaitCompletion_timeOut payload htxc htick htmr⟩

theorem runCommand_next (valid : Bool) (q : Txq) (payload : Byte → Option Payload) {s : State}
    (h : s.ph = .wait → s.tmr.toNat < 100) : ∃ t, runCommand valid q payload s = .next t := by
  cases hph : s.ph with
  | idle => exact ⟨_, runCommand_idle valid q payload hph⟩
  | wait => rw [runCommand_wait valid q payload hph]; exact awaitCompletion_next payload (h hph)
  | resp => exact ⟨_, runCommand_resp valid q payload hph⟩

theorem exec_next (i : Instr) {s : State} (h : s.ph = .wait → s.tmr.toNat < 100) : ∃ t, exec i s = .next t := by
  rcases exec_shape i with ⟨-, _, _, hexec⟩ | ⟨-, _, _, _, hexec⟩ <;> rw [hexec]
  · exact runCommand_next _ _ _ h
  · exact runCommand_next _ _ _ h

/-- Settles O13: the one stop is a tick past the timeout, and the invariant keeps `tmr` below it in WAIT. -/
theorem noStepFaultsUnderTheInvariant : Obligations.NoStepFaultsUnderTheInvariant := by
  intro s hs
  have htmr : s.ph = .wait → s.tmr.toNat < 100 := fun hph =>
    have ⟨_, _, hlt⟩ := hs.waiting hph
    hlt
  refine ⟨?_, fun i => exec_next i htmr⟩
  rcases blockStep_or_overrun s with ⟨u, hu⟩ | ⟨-, hph, -, -, hover⟩
  · exact ⟨_, hu.step_eq⟩
  · exact absurd (htmr hph) (Nat.not_lt.2 hover)

/-! ### The payload a command ends with (O48; 30_encoding.md R83, R84) -/

/-- A command in flight ends by a completion or by the timeout. -/
theorem rsp_of_awaitCompletion {payload : Byte → Option Payload} {s t : State}
    (h : awaitCompletion payload s = .next t) (hs : s.ph = .wait) (ht : t.ph = .resp) :
    t.rsp = (complete payload s).rsp ∨ t.rsp = ⟨.commFailure, none⟩ := by
  rcases awaitCompletion_cases h with ⟨-, rfl⟩ | ⟨-, -, -, rfl⟩ | ⟨-, -, -, rfl⟩ | ⟨-, -, rfl⟩
  · exact .inl rfl
  · cases hs.symm.trans ht
  · exact .inr rfl
  · cases hs.symm.trans ht

/-- A completed set never has a payload (40_transaction_fsm.md R113). -/
theorem responseFits_complete_set {i : Instr} (hi : isGet i = false) (s : State) :
    responseFits i (complete (fun _ => none) s).rsp := by
  rw [complete_eq, respond_rsp, ite_self]
  exact responseFits_none fun _ => hi

/-- Every get is the command of a word, so the tables by `FSEL` give its payload. -/
theorem decode_encode_get {i : Instr} (hi : isGet i = true) : decode (encode i) = i := by
  refine decode_encode ?_
  cases i with
  | getControl | getSeconds | getMinutes | getHours | getDay | getWeekday | getMonth | getYear => rfl
  | setControl | setSeconds | setMinutes | setHours | setDay | setWeekday | setMonth | setYear => cases hi

/-- In WAIT every command awaits its completion, with payloads that fit it. -/
theorem exec_wait_fits (i : Instr) {s : State} (hs : s.ph = .wait) :
    ∃ payload, exec i s = awaitCompletion payload s ∧ responseFits i (complete payload s).rsp := by
  rcases exec_shape i with ⟨hi, -⟩ | ⟨hi, _, _, _, hexec⟩
  · rw [← decode_encode_get hi, exec_decode, runCommand_wait _ _ _ hs]
    exact ⟨_, rfl, responseFits_complete (encode i) s⟩
  · rw [hexec, runSet, runCommand_wait _ _ _ hs]
    exact ⟨_, rfl, responseFits_complete_set hi s⟩

/-- Settles O48. -/
theorem payloadsHaveTheirShapesAndBounds : Obligations.PayloadsHaveTheirShapesAndBounds := by
  intro i s t hs ht hresp
  obtain ⟨payload, hexec, hfits⟩ := exec_wait_fits i hs
  rcases rsp_of_awaitCompletion (hexec ▸ ht) hs hresp with hrsp | hrsp <;> rw [hrsp]
  · exact hfits
  · exact responseFits_none nofun

end Sys2Proof.Machine

/-! PROOFS. The single-transaction state machine (40_transaction_fsm.md): the block without a clock, which inputs a phase
looks at, the frame of a command in each phase, and runs through WAIT. -/

namespace Sys2Proof.Machine

/-! ### The block without a clock (O55; 40_transaction_fsm.md R124) -/

/-- In WAIT with no completion and no reset the environment of the block with no time chooses. -/
def awaitsChoice (s : State) : Prop := s.ph = .wait ∧ s.inp.txcValid = false ∧ s.inp.rst = false

theorem freeTimeoutStep_of_choice (force : Bool) {s : State} (h : awaitsChoice s) :
    freeTimeoutStep force s = .next (advance (if force then forceTimeout s else clearPulses s)) := if_pos h

theorem freeTimeoutStep_of_not_choice (force : Bool) {s : State} (h : ¬ awaitsChoice s) :
    freeTimeoutStep force s = step s := if_neg h

/-- A tick below the hundredth is waiting on, and the hundredth is the forced timeout. -/
theorem BlockStep.untimed_of_choice {s u : State} (h : BlockStep s u) (hs : awaitsChoice s) :
    ∃ force, untimed (if force = true then forceTimeout (untimed s) else clearPulses (untimed s)) = untimed u := by
  obtain ⟨hph, htxc, hrst⟩ := hs
  cases h with
  | ticked | waited => exact ⟨false, rfl⟩
  | timedOut => exact ⟨true, rfl⟩
  | completed _ _ htxc' => cases htxc.symm.trans htxc'
  | reset hrst' => cases hrst.symm.trans hrst'
  | noCommand _ hph' | issued _ hph' | refused _ hph' | taken _ hph' | held _ hph' => cases hph.symm.trans hph'

theorem untimed_complete (p : Byte → Option Payload) (s : State) :
    untimed (complete p (untimed s)) = untimed (complete p s) := by
  rw [complete_eq, complete_eq]; rfl

/-- No other case looks at `tmr`. -/
theorem BlockStep.untimed_of_not_choice {s u : State} (h : BlockStep s u) (hs : ¬ awaitsChoice s) :
    ∃ u', BlockStep (untimed s) u' ∧ untimed u' = untimed u := by
  cases h with
  | reset hrst => exact ⟨_, .reset hrst, rfl⟩
  | noCommand hrst hph hcmd => exact ⟨_, .noCommand hrst hph hcmd, rfl⟩
  | issued hrst hph hcmd hpass => exact ⟨_, .issued hrst hph hcmd hpass, rfl⟩
  | refused hrst hph hcmd hpass => exact ⟨_, .refused hrst hph hcmd hpass, rfl⟩
  | completed hrst hph htxc => exact ⟨_, .completed hrst hph htxc, untimed_complete _ s⟩
  | taken hrst hph hready => exact ⟨_, .taken hrst hph hready, rfl⟩
  | held hrst hph hready => exact ⟨_, .held hrst hph hready, rfl⟩
  | ticked hrst hph htxc | timedOut hrst hph htxc | waited hrst hph htxc => exact absurd ⟨hph, htxc, hrst⟩ hs

/-- Settles O55: dropping `tmr` changes no input, so both blocks are in the same of the two cases, and the passage to the
next sample keeps their agreement. -/
theorem timedBlockRefinesFreeTimeout : Obligations.TimedBlockRefinesFreeTimeout := by
  intro s t _ ht
  obtain ⟨u, hu, rfl⟩ := step_eq_next_iff.1 ht
  by_cases hs : awaitsChoice s
  · obtain ⟨force, huntimed⟩ := hu.untimed_of_choice hs
    exact ⟨force, _, freeTimeoutStep_of_choice force (s := untimed s) hs, congrArg advance huntimed⟩
  · obtain ⟨u', hu', huntimed⟩ := hu.untimed_of_not_choice hs
    exact ⟨false, _, (freeTimeoutStep_of_not_choice false (s := untimed s) hs).trans hu'.step_eq,
      congrArg advance huntimed⟩

/-! ### The tables by `FSEL` (O30) -/

/-- Settles O30. -/
theorem commandsFollowTheFselTables : Obligations.CommandsFollowTheFselTables := exec_decode

/-! ### The inputs a phase looks at (O31, O33, O35; 40_transaction_fsm.md R117, R122) -/

/-- A tick past the timeout is the one step with no next state (log entry 8). -/
theorem step_overrun {s : State} (hrst : s.inp.rst = false) (hph : s.ph = .wait) (htxc : s.inp.txcValid = false)
    (htick : s.inp.tick = true) (htmr : 100 ≤ s.tmr.toNat) : step s = .fault .timerOverrun := by
  rw [step_await hrst hph, awaitCompletion_overrun _ htxc htick htmr]; rfl

/-- The sample `x` agrees with the one at the ports in every input that the phase of `s` looks at; with a completion
presented, the tick is not one of them (R117). -/
structure SeenAlike (s : State) (x : Inputs) : Prop where
  rst      : x.rst = s.inp.rst
  own      : x.own = s.inp.own
  cmdValid : s.ph = .idle → x.cmdValid = s.inp.cmdValid
  cmd      : s.ph = .idle → x.cmd = s.inp.cmd
  txcValid : s.ph = .wait → x.txcValid = s.inp.txcValid
  txc      : s.ph = .wait → x.txc = s.inp.txc
  tick     : s.ph = .wait → s.inp.txcValid = false → x.tick = s.inp.tick
  rspReady : s.ph = .resp → x.rspReady = s.inp.rspReady

theorem latchCommand_withInputs {s : State} {x : Inputs} (h : x.cmd = s.inp.cmd) :
    latchCommand { s with inp := x } = { latchCommand s with inp := x } := by
  rw [latchCommand, h]; rfl

theorem complete_withInputs (p : Byte → Option Payload) {s : State} {x : Inputs} (h : x.txc = s.inp.txc) :
    complete p { s with inp := x } = { complete p s with inp := x } := by
  rw [complete_eq, complete_eq, completion, h]; rfl

/-- With another sample at the ports that the phase cannot tell apart, the block takes the same case. -/
theorem BlockStep.withInputs {s u : State} {x : Inputs} (h : BlockStep s u) (hx : SeenAlike s x) :
    BlockStep { s with inp := x } { u with inp := x } := by
  cases h with
  | reset hrst => exact .reset (hx.rst.trans hrst)
  | noCommand hrst hph hcmd => exact .noCommand (hx.rst.trans hrst) hph ((hx.cmdValid hph).trans hcmd)
  | issued hrst hph hcmd hpass =>
    have hword := hx.cmd hph
    have hstep : BlockStep { s with inp := x } _ :=
      .issued (hx.rst.trans hrst) hph ((hx.cmdValid hph).trans hcmd) (hword ▸ hpass)
    rw [latchCommand_withInputs hword] at hstep
    exact hword ▸ hstep
  | refused hrst hph hcmd hpass =>
    have hword := hx.cmd hph
    have hstep : BlockStep { s with inp := x } _ :=
      .refused (hx.rst.trans hrst) hph ((hx.cmdValid hph).trans hcmd) (hword ▸ hpass)
    rwa [latchCommand_withInputs hword] at hstep
  | completed hrst hph htxc =>
    rw [← complete_withInputs _ (hx.txc hph)]
    exact .completed (hx.rst.trans hrst) hph ((hx.txcValid hph).trans htxc)
  | ticked hrst hph htxc htick htmr =>
    exact .ticked (hx.rst.trans hrst) hph ((hx.txcValid hph).trans htxc) ((hx.tick hph htxc).trans htick) htmr
  | timedOut hrst hph htxc htick htmr =>
    exact .timedOut (hx.rst.trans hrst) hph ((hx.txcValid hph).trans htxc) ((hx.tick hph htxc).trans htick) htmr
  | waited hrst hph htxc htick =>
    exact .waited (hx.rst.trans hrst) hph ((hx.txcValid hph).trans htxc) ((hx.tick hph htxc).trans htick)
  | taken hrst hph hready => exact .taken (hx.rst.trans hrst) hph ((hx.rspReady hph).trans hready)
  | held hrst hph hready => exact .held (hx.rst.trans hrst) hph ((hx.rspReady hph).trans hready)

/-- The passage to the next sample looks only at the peripheral's own changes. -/
theorem advance_withInputs {u : State} {x : Inputs} (h : x.own = u.inp.own) :
    advance { u with inp := x } = advance u := by
  rw [advance, h]; rfl

/-- A step depends on the inputs that the phase looks at, and on no other. -/
theorem step_withInputs {s : State} {x : Inputs} (hx : SeenAlike s x) : step { s with inp := x } = step s := by
  rcases blockStep_or_overrun s with ⟨u, hu⟩ | ⟨hrst, hph, htxc, htick, htmr⟩
  · rw [hu.step_eq, (hu.withInputs hx).step_eq, advance_withInputs (hx.own.trans (congrArg Inputs.own hu.inp_eq.symm))]
  · rw [step_overrun hrst hph htxc htick htmr]
    exact step_overrun (hx.rst.trans hrst) hph ((hx.txcValid hph).trans htxc) ((hx.tick hph htxc).trans htick) htmr

theorem SeenAlike.outside_wait {s : State} (h : s.ph ≠ .wait) (v : Bool) (c : BitVec 10) (x : Bool) :
    SeenAlike s { s.inp with txcValid := v, txc := c, tick := x } := by
  constructor <;> simp [h]

theorem SeenAlike.outside_idle {s : State} (h : s.ph ≠ .idle) (v : Bool) (w : CommandWord) :
    SeenAlike s { s.inp with cmdValid := v, cmd := w } := by
  constructor <;> simp [h]

theorem SeenAlike.outside_resp {s : State} (h : s.ph ≠ .resp) (y : Bool) :
    SeenAlike s { s.inp with rspReady := y } := by
  constructor <;> simp [h]

theorem SeenAlike.completion_over_tick {s : State} (h : s.inp.txcValid = true) (x : Bool) :
    SeenAlike s { s.inp with tick := x } := by
  constructor <;> simp [h]

/-- Settles O35. -/
theorem ignoredInputsChangeNothing : Obligations.IgnoredInputsChangeNothing := fun _ v x y c w =>
  ⟨fun h => step_withInputs (.outside_wait h v c x), fun h => step_withInputs (.outside_idle h v w),
    fun h => step_withInputs (.outside_resp h y)⟩

/-! ### The balance of transactions (O38; 40_transaction_fsm.md R121, R123) -/

/-- WAIT is entered with the `txq_valid` pulse alone. -/
theorem BlockStep.wait_entered {s u : State} (h : BlockStep s u) (hu : u.ph = .wait) :
    s.ph = .wait ∨ u.txqValid = true := by
  cases h with
  | issued => exact .inr rfl
  | completed => simp at hu
  | noCommand | ticked | waited | held => exact .inl hu
  | reset | refused | timedOut | taken => cases hu

/-- A completion presented in WAIT ends it, unless a reset does. -/
theorem BlockStep.wait_left {s u : State} (h : BlockStep s u) (hph : s.ph = .wait) (htxc : s.inp.txcValid = true) :
    u.ph ≠ .wait := by
  cases h with
  | reset => exact nofun
  | completed => simp
  | noCommand _ hph' | issued _ hph' | refused _ hph' | taken _ hph' | held _ hph' => cases hph.symm.trans hph'
  | ticked _ _ htxc' | timedOut _ _ htxc' | waited _ _ htxc' => cases htxc.symm.trans htxc'

theorem BlockStep.open_balance {s u : State} (h : BlockStep s u) (hengine : engineKeepsToRequests s) :
    openTransactions u + s.inp.txcValid.toNat ≤ openTransactions s + u.txqValid.toNat := by
  cases htxc : s.inp.txcValid with
  | true => simp [openTransactions, hengine htxc, h.wait_left (hengine htxc) htxc]
  | false =>
    by_cases hu : u.ph = .wait
    · rcases h.wait_entered hu with hph | hv
      · simp [openTransactions, hu, hph]
      · simp [openTransactions, hu, hv]
    · simp [openTransactions, hu]

/-- Settles O38. -/
theorem everyCompletionAnswersOneRequest : Obligations.EveryCompletionAnswersOneRequest := by
  intro s t hengine ht
  obtain ⟨u, hu, rfl⟩ := step_eq_next_iff.1 ht
  exact hu.open_balance hengine

/-! ### The tick, the timeout, the completion and the delivery (O31, O32, O33, O34) -/

/-- Settles O31. -/
theorem tickStepCountsOne : Obligations.TickStepCountsOne :=
  ⟨fun _ hrst hph htick htxc htmr => ⟨(BlockStep.ticked hrst hph htxc htick htmr).step_eq, tmr_succ_toNat htmr⟩,
    fun s x hph => step_withInputs (.outside_wait hph s.inp.txcValid s.inp.txc x)⟩

/-- Settles O32. -/
theorem hundredthTickTimesOut : Obligations.HundredthTickTimesOut := fun s hrst hph htick htxc htmr =>
  ⟨memForget s.draw, (BlockStep.timedOut hrst hph htxc htick htmr).step_eq⟩

/-- A completion answers the command word in `CMD` by its status (40_transaction_fsm.md R113, R117). -/
theorem complete_rsp (cw : CommandWord) (s : State) :
    (complete (wordPayload cw) s).rsp = responseTo cw (completion s) := by
  rw [complete_eq, respond_rsp, responseTo]
  cases (completion s).status <;> rfl

/-- CommFailure comes without a payload, whichever failure it was. -/
theorem responseTo_commFailure {cw : CommandWord} {c : Completion} (h : (responseTo cw c).result = .commFailure) :
    responseTo cw c = ⟨.commFailure, none⟩ := by
  unfold responseTo at h ⊢
  cases hst : c.status with
  | ok | invalidArg => rw [hst] at h; cases h
  | fail | other => rfl

/-- Settles O33. -/
theorem completionWinsOverTick : Obligations.CompletionWinsOverTick := by
  refine ⟨fun s hrst hph htxc => ⟨fun x => step_withInputs (.completion_over_tick htxc x), ?_⟩,
    fun s hrst hph htxc htick htmr => ⟨_, (BlockStep.timedOut hrst hph htxc htick htmr).step_eq, rfl, rfl⟩⟩
  refine ⟨_, (BlockStep.completed hrst hph htxc).step_eq, complete_ph _ s, complete_tmr _ s, complete_txAbort _ s, ?_⟩
  rw [advance_rsp, complete_rsp]
  refine ⟨?_, responseTo_commFailure⟩
  rw [responseTo]
  cases (completion s).status <;> rfl

/-- Settles O34. -/
theorem deliverStepReturnsToIdle : Obligations.DeliverStepReturnsToIdle := fun _ hrst hph hready =>
  ⟨_, (BlockStep.taken hrst hph hready).step_eq, rfl, rfl, rfl, rfl, rfl, rfl, rfl, rfl⟩

/-! ### The frame of a command in each phase (O43, O44, O45, O46) -/

/-- In IDLE every command is accepted, with a validity and a transaction of its own. -/
theorem exec_idle (i : Instr) {s : State} (h : s.ph = .idle) : ∃ valid q, exec i s = .next (accept valid q s) := by
  rcases exec_shape i with ⟨-, _, _, hexec⟩ | ⟨-, _, _, _, hexec⟩
  · exact ⟨_, _, (hexec s).trans (runCommand_idle _ _ _ h)⟩
  · exact ⟨_, _, (hexec s).trans (runCommand_idle _ _ _ h)⟩

/-- In RESP every command is delivered alike. -/
theorem exec_resp (i : Instr) {s : State} (h : s.ph = .resp) : exec i s = .next (deliver s) := by
  rcases exec_shape i with ⟨-, _, _, hexec⟩ | ⟨-, _, _, _, hexec⟩
  · exact (hexec s).trans (runCommand_resp _ _ _ h)
  · exact (hexec s).trans (runCommand_resp _ _ _ h)

/-- Settles O43: the two ends of an acceptance are the issue and the refusal. -/
theorem acceptanceFrame : Obligations.AcceptanceFrame := by
  intro i s t hph ht
  obtain ⟨valid, q, hexec⟩ := exec_idle i hph
  obtain rfl := Host.Outcome.next.inj (ht.symm.trans hexec)
  cases valid with
  | true => exact ⟨fun _ => rfl, rfl, rfl, rfl, rfl, rfl, .inl ⟨rfl, rfl, rfl, rfl⟩⟩
  | false => exact ⟨fun _ => rfl, rfl, rfl, rfl, rfl, rfl, .inr ⟨rfl, rfl, rfl, rfl⟩⟩

/-- Settles O46: the response is taken, or held. -/
theorem deliveryFrame : Obligations.DeliveryFrame := by
  intro i s t hph ht
  obtain rfl := Host.Outcome.next.inj (ht.symm.trans (exec_resp i hph))
  cases hready : s.inp.rspReady with
  | true => rw [deliver_ready hready]; exact ⟨rfl, rfl, rfl, rfl, rfl, rfl, fun _ => rfl, rfl, rfl, rfl, rfl⟩
  | false => rw [deliver_held hready]; exact ⟨rfl, rfl, rfl, rfl, rfl, rfl, fun _ => rfl, rfl, rfl, rfl, hph⟩

/-- What a step in WAIT leaves unchanged whatever happens in it; it issues nothing, and what ends it is a completion or
the timeout. -/
structure AwaitFrame (s t : State) : Prop where
  cmd      : t.cmd = s.cmd
  txq      : t.txq = s.txq
  txqValid : t.txqValid = false
  inp      : t.inp = s.inp
  upcoming : t.upcoming = s.upcoming
  draw     : t.draw = s.draw
  tmr      : s.inp.txcValid = true → t.tmr = s.tmr
  rsp      : t.ph = .wait → t.rsp = s.rsp

theorem awaitCompletion_frame {payload : Byte → Option Payload} {s t : State}
    (h : awaitCompletion payload s = .next t) : AwaitFrame s t := by
  rcases awaitCompletion_cases h with ⟨-, rfl⟩ | ⟨htxc, -, -, rfl⟩ | ⟨htxc, -, -, rfl⟩ | ⟨-, -, rfl⟩
  · constructor <;> simp
  · exact ⟨rfl, rfl, rfl, rfl, rfl, rfl, fun hv => (by cases htxc.symm.trans hv), fun _ => rfl⟩
  · exact ⟨rfl, rfl, rfl, rfl, rfl, rfl, fun hv => (by cases htxc.symm.trans hv), nofun⟩
  · exact ⟨rfl, rfl, rfl, rfl, rfl, rfl, fun _ => rfl, fun _ => rfl⟩

/-- The register file after a step in WAIT, by the phase and the result that step leaves: untouched while the wait goes on
and by a rejection, what a success makes of it, or open after a failure. -/
inductive AwaitFile (s t : State) : Prop
  | waiting (hph : t.ph = .wait) (hper : t.per = s.per)
  | succeeded (hph : t.ph = .resp) (hresult : t.rsp.result = .success)
      (hper : t.per = peripheralAfter s.txq .ok s.draw s.per)
  | rejected (hph : t.ph = .resp) (hresult : t.rsp.result = .invalidParam) (hper : t.per = s.per)
  | failed (hph : t.ph = .resp) (hresult : t.rsp.result = .commFailure)

theorem complete_file (payload : Byte → Option Payload) (s : State) : AwaitFile s (complete payload s) := by
  rw [complete_eq]
  cases (completion s).status with
  | ok => exact .succeeded rfl rfl rfl
  | invalidArg => exact .rejected rfl rfl rfl
  | fail | other => exact .failed rfl rfl

theorem awaitCompletion_file {payload : Byte → Option Payload} {s t : State}
    (h : awaitCompletion payload s = .next t) (hs : s.ph = .wait) : AwaitFile s t := by
  rcases awaitCompletion_cases h with ⟨-, rfl⟩ | ⟨-, -, -, rfl⟩ | ⟨-, -, -, rfl⟩ | ⟨-, -, rfl⟩
  · exact complete_file payload s
  · exact .waiting hs rfl
  · exact .failed rfl rfl
  · exact .waiting hs rfl

/-- Every command in WAIT has both: the frame of the wait, and the file by its outcome. -/
theorem exec_wait_frame {i : Instr} {s t : State} (hs : s.ph = .wait) (ht : exec i s = .next t) :
    AwaitFrame s t ∧ AwaitFile s t := by
  obtain ⟨payload, hexec, -⟩ := exec_wait_fits i hs
  rw [hexec] at ht
  exact ⟨awaitCompletion_frame ht, awaitCompletion_file ht hs⟩

/-- Without a failure the file is as it was, or as a success leaves it. -/
theorem AwaitFile.per_of_not_failed {s t : State} (h : AwaitFile s t)
    (hok : t.rsp.result ≠ .commFailure ∨ t.ph = .wait) :
    t.per = s.per ∨ t.per = peripheralAfter s.txq .ok s.draw s.per := by
  cases h with
  | waiting _ hper | rejected _ _ hper => exact .inl hper
  | succeeded _ _ hper => exact .inr hper
  | failed hph hresult =>
    rcases hok with hok | hok
    · exact absurd hresult hok
    · cases hph.symm.trans hok

/-- A read that does not fail leaves every register as it was (log entry 17). -/
theorem AwaitFile.of_read {s t : State} (h : AwaitFile s t) (hk : s.txq.kind = .writeThenRead)
    (hok : t.rsp.result ≠ .commFailure ∨ t.ph = .wait) : t.per = s.per := by
  rcases h.per_of_not_failed hok with hper | hper
  · exact hper
  · exact hper.trans (peripheralAfter_ok_of_read hk _ _)

/-- Settles O44. -/
theorem getFrame : Obligations.GetFrame := by
  intro i s t _ hs hk ht
  obtain ⟨hframe, hfile⟩ := exec_wait_frame hs ht
  exact ⟨hframe.cmd, hframe.txq, hframe.txqValid, hframe.inp, hframe.upcoming, hframe.draw,
    fun hok a => by rw [hfile.of_read hk hok], hframe.tmr, hframe.rsp⟩

/-- A write that does not fail leaves every register but the one it names as it was (log entry 17). -/
theorem AwaitFile.of_write_other {s t : State} (h : AwaitFile s t) (hk : s.txq.kind = .writeOnly)
    (hok : t.rsp.result ≠ .commFailure ∨ t.ph = .wait) {a : Nat} (ha : a ≠ s.txq.b0.toNat) :
    memRead t.per a = memRead s.per a := by
  rcases h.per_of_not_failed hok with hper | hper
  · rw [hper]
  · rw [hper, peripheralAfter_ok_of_write hk, memRead_memWrite_of_ne _ _ ha]

/-- A write that succeeds stores its byte (20_memory.md R57). -/
theorem AwaitFile.of_write_success {s t : State} (h : AwaitFile s t) (hk : s.txq.kind = .writeOnly)
    (hph : t.ph = .resp) (hresult : t.rsp.result = .success) : memRead t.per s.txq.b0.toNat = s.txq.b1 := by
  cases h with
  | succeeded _ _ hper => rw [hper, peripheralAfter_ok_of_write hk, memRead_memWrite_self]
  | waiting hph' => cases hph.symm.trans hph'
  | rejected _ hresult' | failed _ hresult' => cases hresult.symm.trans hresult'

/-- Before the completion and after a rejection nothing is stored (log entry 14). -/
theorem AwaitFile.of_unfinished {s t : State} (h : AwaitFile s t)
    (ht : t.ph = .wait ∨ (t.ph = .resp ∧ t.rsp.result = .invalidParam)) : t.per = s.per := by
  cases h with
  | waiting _ hper | rejected _ _ hper => exact hper
  | succeeded hph hresult | failed hph hresult =>
    rcases ht with hwait | ⟨-, hinvalid⟩
    · cases hph.symm.trans hwait
    · cases hresult.symm.trans hinvalid

/-- Settles O45. -/
theorem setFrame : Obligations.SetFrame := by
  intro i s t _ hs hk ht
  obtain ⟨hframe, hfile⟩ := exec_wait_frame hs ht
  exact ⟨hframe.cmd, hframe.txq, hframe.txqValid, hframe.inp, hframe.upcoming, hframe.draw,
    fun hok _ ha => hfile.of_write_other hk hok ha, hfile.of_write_success hk,
    fun hunfinished => by rw [hfile.of_unfinished hunfinished], hframe.tmr, hframe.rsp⟩

/-! ### Runs through WAIT (O52, O53, O54) -/

theorem runSteps_one {s t : State} (h : step s = .next t) : runSteps 1 s = .next t := runSteps_succ_of_next h

/-- A run goes on from where a shorter one ended. -/
theorem runSteps_add_of_next {m n : Nat} {s t : State} (h : runSteps m s = .next t) :
    runSteps (m + n) s = runSteps n t := by
  induction m generalizing s with
  | zero => rw [Nat.zero_add, Host.Outcome.next.inj h]
  | succ m ih =>
    obtain ⟨u, hu, hrest⟩ := runSteps_succ_cases h
    rw [Nat.succ_add, runSteps_succ_of_next hu]
    exact ih hrest

theorem upcoming_of_step {s t : State} (h : step s = .next t) : t.upcoming = s.upcoming.tail := by
  obtain ⟨u, hu, rfl⟩ := step_eq_next_iff.1 h
  rw [advance_upcoming, hu.upcoming_eq]

/-- The samples that a run of one step more looks at: the one at the ports, then those of the rest of the run. -/
theorem samples_take_succ {s t : State} {n : Nat} (h : step s = .next t) (hn : n ≤ s.upcoming.length) :
    (samples s).take (n + 1) = s.inp :: (samples t).take n := by
  cases n with
  | zero => rfl
  | succ n => rw [samples_of_step h (List.ne_nil_of_length_pos (by omega))]; rfl

/-- Settles O54: each step waits on and leaves the latches to the next. -/
theorem waitHangsWithoutTicks : Obligations.WaitHangsWithoutTicks := by
  intro n
  induction n with
  | zero => exact fun s hph _ _ => ⟨s, rfl, hph, rfl, rfl, rfl⟩
  | succ n ih =>
    intro s hph hn hquiet
    obtain ⟨htick, htxc, hrst⟩ := hquiet s.inp List.mem_cons_self
    have hstep := (BlockStep.waited hrst hph htxc htick).step_eq
    have hlen : s.upcoming.tail.length = s.upcoming.length - 1 := List.length_tail
    rw [samples_take_succ hstep (by omega)] at hquiet
    obtain ⟨t, ht, hlatches⟩ := ih (advance (clearPulses s)) hph (by simp; omega)
      fun x hx => hquiet x (List.mem_cons_of_mem _ hx)
    exact ⟨t, (runSteps_succ_of_next hstep).trans ht, hlatches⟩

theorem runSteps_one_completed {s : State} (hrst : s.inp.rst = false) (hph : s.ph = .wait)
    (htxc : s.inp.txcValid = true) : ∃ t, runSteps 1 s = .next t ∧ t.ph = .resp :=
  ⟨_, runSteps_one (BlockStep.completed hrst hph htxc).step_eq, complete_ph _ s⟩

/-- With `m` ticks counted after this one to the hundredth, a completion or the timeout ends the wait in time. -/
theorem wait_ends_within (m : Nat) {s : State} (hph : s.ph = .wait) (htmr : s.tmr.toNat + m = 99)
    (hlen : m ≤ s.upcoming.length) (hticks : ∀ x ∈ (samples s).take (m + 1), x.tick = true ∧ x.rst = false) :
    ∃ k t, 1 ≤ k ∧ k ≤ m + 1 ∧ runSteps k s = .next t ∧ t.ph = .resp := by
  induction m generalizing s with
  | zero =>
    obtain ⟨htick, hrst⟩ := hticks s.inp List.mem_cons_self
    cases htxc : s.inp.txcValid with
    | true => exact ⟨1, (runSteps_one_completed hrst hph htxc).imp fun _ h => ⟨le_rfl, le_rfl, h⟩⟩
    | false => exact ⟨1, _, le_rfl, le_rfl, runSteps_one (BlockStep.timedOut hrst hph htxc htick htmr).step_eq, rfl⟩
  | succ m ih =>
    obtain ⟨htick, hrst⟩ := hticks s.inp List.mem_cons_self
    cases htxc : s.inp.txcValid with
    | true => exact ⟨1, (runSteps_one_completed hrst hph htxc).imp fun _ h => ⟨le_rfl, by omega, h⟩⟩
    | false =>
      have hbelow : s.tmr.toNat ≤ 98 := by omega
      have hstep := (BlockStep.ticked hrst hph htxc htick hbelow).step_eq
      have htmr' : (s.tmr + 1).toNat + m = 99 := by rw [tmr_succ_toNat hbelow]; omega
      have hlen' : m ≤ s.upcoming.tail.length := by rw [List.length_tail]; omega
      rw [samples_take_succ hstep (by omega)] at hticks
      obtain ⟨k, t, hk1, hkm, ht, hresp⟩ := ih (s := advance { clearPulses s with tmr := s.tmr + 1 }) hph htmr' hlen'
        fun x hx => hticks x (List.mem_cons_of_mem _ hx)
      exact ⟨k + 1, t, by omega, by omega, (runSteps_succ_of_next hstep).trans ht, hresp⟩

/-- Settles O53: the invariant puts `tmr` below the timeout, and so at most a hundred ticks away from it. -/
theorem hundredTicksEndTheWait : Obligations.HundredTicksEndTheWait := by
  intro s hs hph hlen hticks
  obtain ⟨-, -, htmr⟩ := hs.waiting hph
  have hfirst : ∀ x ∈ (samples s).take (99 - s.tmr.toNat + 1), x.tick = true ∧ x.rst = false := fun x hx =>
    hticks x (List.take_subset_take_left _ (by omega) hx)
  obtain ⟨k, t, hk1, hkm, ht, hresp⟩ := wait_ends_within (99 - s.tmr.toNat) hph (by omega) (by omega) hfirst
  exact ⟨k, t, hk1, by omega, ht, hresp⟩

/-- `t` is `s` in WAIT `k` ticks later, with nothing else come from outside. -/
structure TicksLater (k : Nat) (s t : State) : Prop where
  ph   : t.ph = .wait
  cmd  : t.cmd = s.cmd
  txq  : t.txq = s.txq
  tmr  : t.tmr.toNat = s.tmr.toNat + k
  per  : t.per = s.per
  draw : t.draw = s.draw + k

theorem TicksLater.trans {j k : Nat} {s t u : State} (h : TicksLater j s t) (h' : TicksLater k t u) :
    TicksLater (j + k) s u where
  ph := h'.ph
  cmd := h'.cmd.trans h.cmd
  txq := h'.txq.trans h.txq
  tmr := by rw [h'.tmr, h.tmr, Nat.add_assoc]
  per := h'.per.trans h.per
  draw := by rw [h'.draw, h.draw, Nat.add_assoc]

/-- A sample with a tick alone is counted (40_transaction_fsm.md R115). -/
theorem step_tickSample {s : State} (hph : s.ph = .wait) (htmr : s.tmr.toNat ≤ 98) (hinp : s.inp = tickSample) :
    ∃ t, step s = .next t ∧ TicksLater 1 s t := by
  have hstep := (BlockStep.ticked (by rw [hinp]; rfl) hph (by rw [hinp]; rfl) (by rw [hinp]; rfl) htmr).step_eq
  refine ⟨_, hstep, hph, rfl, rfl, tmr_succ_toNat htmr, ?_, rfl⟩
  rw [advance_per, clearPulses_inp, hinp]; rfl

/-- Ticks short of the hundredth are counted, for as long as nothing else comes. -/
theorem runSteps_ticks (k : Nat) {s : State} {rest : List Inputs} (hph : s.ph = .wait) (htmr : s.tmr.toNat + k ≤ 99)
    (hs : samples s = List.replicate k tickSample ++ rest) (hrest : rest ≠ []) :
    ∃ t, runSteps k s = .next t ∧ TicksLater k s t ∧ samples t = rest := by
  induction k generalizing s with
  | zero => exact ⟨s, rfl, ⟨hph, rfl, rfl, rfl, rfl, rfl⟩, hs⟩
  | succ k ih =>
    obtain ⟨hinp, hup⟩ := List.cons.inj hs
    obtain ⟨t, ht, hlater⟩ := step_tickSample hph (by omega) hinp
    have hsamples : samples t = List.replicate k tickSample ++ rest :=
      (samples_of_step ht (hup ▸ List.append_ne_nil_of_right_ne_nil _ hrest)).trans hup
    have htmr' := hlater.tmr
    obtain ⟨u, hu, hlater', hend⟩ := ih hlater.ph (by omega) hsamples
    exact ⟨u, (runSteps_succ_of_next ht).trans hu, Nat.add_comm k 1 ▸ hlater.trans hlater', hend⟩

/-- A sample with a completion alone answers the command in `CMD` (40_transaction_fsm.md R113). -/
theorem step_completionSample {s : State} {c : Completion} (hph : s.ph = .wait) (hinp : s.inp = completionSample c) :
    ∃ t, step s = .next t ∧ t.ph = .resp ∧ t.cmd = s.cmd ∧ t.rsp = responseTo s.cmd c ∧ t.tmr = s.tmr ∧
      t.per = peripheralAfter s.txq c.status s.draw s.per := by
  have hstep := (BlockStep.completed (by rw [hinp]; rfl) hph (by rw [hinp]; rfl)).step_eq
  have hcompletion : completion s = c := by
    rw [completion, hinp]; exact unpackCompletion_packCompletion c
  refine ⟨_, hstep, complete_ph _ s, complete_cmd _ s, ?_, complete_tmr _ s, ?_⟩
  · rw [advance_rsp, complete_rsp, hcompletion]
  · rw [advance_per, complete_inp, hinp, complete_per, hcompletion]; rfl

/-- A sample in which the host takes the response ends the command (40_transaction_fsm.md R119). -/
theorem step_takeSample {s : State} (hph : s.ph = .resp) (hinp : s.inp = { quietInputs with rspReady := true }) :
    ∃ t, step s = .next t ∧ t.ph = .idle ∧ t.rsp = s.rsp ∧ t.per = s.per := by
  refine ⟨_, (BlockStep.taken (by rw [hinp]; rfl) hph (by rw [hinp])).step_eq, rfl, rfl, ?_⟩
  rw [advance_per, clearPulses_inp, hinp]; rfl

/-- A sample with a command alone issues the transaction of a word that passes (40_transaction_fsm.md R111). -/
theorem step_commandSample {s : State} {cw : CommandWord} (hph : s.ph = .idle) (hpass : passes cw = true)
    (hinp : s.inp = commandSample cw) :
    ∃ t, step s = .next t ∧ t.ph = .wait ∧ t.cmd = cw ∧ t.txq = formTxq cw ∧ t.tmr = 0 ∧ t.per = s.per ∧
      t.draw = s.draw + 1 := by
  have hcmd : s.inp.cmd = cw := by rw [hinp]; rfl
  have hstep := (BlockStep.issued (by rw [hinp]; rfl) hph (by rw [hinp]; rfl) (hcmd ▸ hpass)).step_eq
  refine ⟨_, hstep, rfl, hcmd, congrArg formTxq hcmd, rfl, ?_, rfl⟩
  rw [advance_per, issue_inp, latchCommand_inp, hinp]; rfl

/-- Settles O52: the acceptance, the ticks, the completion and the delivery, each from where the one before ended. -/
theorem acceptedCommandAnswersItsCompletion : Obligations.AcceptedCommandAnswersItsCompletion := by
  intro s cw k c rest hph hpass hk hinp hup
  obtain ⟨a, ha, haph, hacmd, hatxq, hatmr, haper, hadraw⟩ := step_commandSample hph hpass hinp
  have hasamples := (samples_of_step ha (by simp [hup])).trans hup
  obtain ⟨w, hw, hlater, hwsamples⟩ := runSteps_ticks k haph (by simp [hatmr, hk]) hasamples (List.cons_ne_nil _ _)
  obtain ⟨hwinp, hwup⟩ := List.cons.inj hwsamples
  obtain ⟨t, ht, htph, htcmd, htrsp, httmr, htper⟩ := step_completionSample hlater.ph hwinp
  have htsamples := (samples_of_step ht (by simp [hwup])).trans hwup
  obtain ⟨u, hu, huph, hursp, huper⟩ := step_takeSample htph (List.cons.inj htsamples).1
  have hcmd : w.cmd = cw := hlater.cmd.trans hacmd
  have hrun : runSteps (k + 2) s = .next t :=
    calc runSteps (k + 2) s = runSteps (k + 1) a := runSteps_succ_of_next ha
      _ = runSteps 1 w := runSteps_add_of_next hw
      _ = .next t := runSteps_one ht
  refine ⟨t, u, hrun, htph, htcmd.trans hcmd, by rw [htrsp, hcmd], ?_, ?_, ?_, huph, hursp, huper⟩
  · rw [httmr, hlater.tmr, hatmr]; simp
  · rw [htper, hlater.txq, hatxq, hlater.draw, hadraw, hlater.per, haper, Nat.add_right_comm]
  · exact (runSteps_add_of_next hrun).trans (runSteps_one hu)

end Sys2Proof.Machine

/-! PROOFS. The BCD codec (41_bcd_codec.md): its two routines as sums of digits, the round trip, the contracts that the
gets and the sets of any field meet, and a set read back through the ideal register file. -/

namespace Sys2Proof.Machine

/-! ### The two routines as arithmetic (R141, R142) -/

theorem tensMask_eq (w : Nat) : tensMask w = (2 ^ w - 1) <<< 4 := by rw [tensMask, Nat.one_shiftLeft]

theorem tensMask_shiftRight (w : Nat) : tensMask w >>> 4 = 2 ^ w - 1 := by rw [tensMask_eq, Nat.shiftLeft_shiftRight]

/-- The tens digit is the `w` bits from bit 4, the units digit the nibble below. -/
theorem bcdDecode_eq (b : Byte) (w : Nat) : bcdDecode b w = b.toNat / 16 % 2 ^ w * 10 + b.toNat % 16 := by
  have htens : (b.toNat &&& tensMask w) >>> 4 = b.toNat / 16 % 2 ^ w := by
    rw [Nat.shiftRight_and_distrib, tensMask_shiftRight, Nat.and_two_pow_sub_one_eq_mod, Nat.shiftRight_eq_div_pow]
  have hunits : b.toNat &&& 0x0F = b.toNat % 16 := Nat.and_two_pow_sub_one_eq_mod _ 4
  rw [bcdDecode, htens, hunits]

/-- The two digits share no bit, so their union is a sum (R143). -/
theorem bcdEncode_eq (v w : Nat) : bcdEncode v w = 16 * (v / 10 % 2 ^ w) + v % 10 := by
  have htens : ((v / 10) <<< 4) &&& tensMask w = (v / 10 % 2 ^ w) <<< 4 := by
    rw [tensMask_eq, ← Nat.shiftLeft_and_distrib, Nat.and_two_pow_sub_one_eq_mod]
  have hunits : v % 10 < 2 ^ 4 := by omega
  rw [bcdEncode, htens, ← Nat.shiftLeft_add_eq_or_of_lt hunits, Nat.shiftLeft_eq, Nat.mul_comm]

/-- A tens digit that fits its width is not masked (R145). -/
theorem bcdEncode_of_tens_lt {v w : Nat} (h : v / 10 < 2 ^ w) : bcdEncode v w = 16 * (v / 10) + v % 10 := by
  rw [bcdEncode_eq, Nat.mod_eq_of_lt h]

theorem bcdByte_eq_digitByte {v w : Nat} (h : v / 10 < 2 ^ w) : bcdByte v w = digitByte v :=
  congrArg (BitVec.ofNat 8) (bcdEncode_of_tens_lt h)

/-- The encoding fits the byte, whatever the value, for a width of at most four bits. -/
theorem bcdByte_toNat (v : Nat) {w : Nat} (hw : w ≤ 4) : (bcdByte v w).toNat = bcdEncode v w :=
  Nat.mod_eq_of_lt ((bcdEncode_lt v w).trans_le (Nat.pow_le_pow_right (by decide) (by omega)))

/-- Decoding undoes encoding as long as the tens digit fits (R145). -/
theorem bcdDecode_bcdByte {v w : Nat} (h : v / 10 < 2 ^ w) (hw : w ≤ 4) : bcdDecode (bcdByte v w) w = v := by
  have hbyte : (bcdByte v w).toNat = 16 * (v / 10) + v % 10 := (bcdByte_toNat v hw).trans (bcdEncode_of_tens_lt h)
  have htens : (16 * (v / 10) + v % 10) / 16 = v / 10 := by omega
  rw [bcdDecode_eq, hbyte, htens, Nat.mod_eq_of_lt h]
  omega

theorem bcdValue_bcdByte {v w : Nat} (h : v / 10 < 2 ^ w) (hw : w ≤ 4) :
    bcdValue (bcdByte v w) w = BitVec.ofNat 8 v :=
  congrArg (BitVec.ofNat 8) (bcdDecode_bcdByte h hw)

/-- The decoder reads the two digits of the register format (10_state.md R35 to R41). -/
theorem bcdValue_eq_twoDigits (b : Byte) (w : Nat) : bcdValue b w = twoDigits w b := by
  rw [bcdValue, twoDigits, bcdDecode_eq, BitVec.extractLsb'_toNat, BitVec.extractLsb'_toNat, Nat.shiftRight_eq_div_pow,
    Nat.mul_comm]
  rfl

/-! ### The round trip (O49) -/

/-- A byte that comes back from decoding and encoding has nothing above the tens group, a decimal units digit, and a
tens digit that fits. -/
theorem limits_of_bcdEncode_bcdDecode {b : Byte} {w : Nat} (h : bcdEncode (bcdDecode b w) w = b.toNat) :
    b.toNat < 16 * 2 ^ w ∧ b.toNat % 16 ≤ 9 ∧ bcdDecode b w / 10 < 2 ^ w := by
  have hhigh : b.toNat < 2 ^ (w + 4) := h ▸ bcdEncode_lt _ w
  have hunits : b.toNat % 16 ≤ 9 := by rw [bcdEncode_eq] at h; omega
  have htens : b.toNat / 16 % 2 ^ w < 2 ^ w := Nat.mod_lt _ (Nat.two_pow_pos w)
  rw [bcdDecode_eq]
  exact ⟨by rw [Nat.pow_add] at hhigh; omega, hunits, by omega⟩

/-- Settles O49: the greatest value of each field has a tens digit that fits the field's width. -/
theorem bcdRoundTrip : Obligations.BcdRoundTrip := by
  have hround {v w : Nat} (h : v / 10 < 2 ^ w) (hw : w ≤ 4) :
      bcdDecode (bcdByte v w) w = v ∧ bcdEncode v w = 16 * (v / 10) + v % 10 :=
    ⟨bcdDecode_bcdByte h hw, bcdEncode_of_tens_lt h⟩
  exact ⟨fun v hv => hround (by omega) (by decide), fun v hv => hround (by omega) (by decide),
    fun v hv => hround (by omega) (by decide), fun v hv => hround (by omega) (by decide),
    fun _ _ _ h => limits_of_bcdEncode_bcdDecode h⟩

/-! ### The contract of a get and of a set, for any field

A command meets its contract as soon as it runs as a get or a set of its field and its word decodes to it. -/

/-- Once a transaction is in flight, every command ends, ticks and waits alike (40_transaction_fsm.md R113, R115 to
R119). -/
theorem outcomeContract (i : Instr) (q : Txq) : OutcomeContract i q where
  rejected := fun s ⟨hph, _⟩ htxc hst => by
    obtain ⟨_, hexec, -⟩ := exec_wait_fits i hph
    rw [hexec, awaitCompletion_completed _ htxc, complete_eq, hst]
    rfl
  failed := fun s ⟨hph, _⟩ htxc hst => by
    obtain ⟨_, hexec, -⟩ := exec_wait_fits i hph
    rw [hexec, awaitCompletion_completed _ htxc, complete_eq]
    rcases hst with hst | hst
    · rw [hst]; exact ⟨_, rfl⟩
    · rw [hst]; exact ⟨_, rfl⟩
  ticked := fun _ ⟨hph, _⟩ htxc htick htmr =>
    have ⟨_, hexec, _⟩ := exec_wait_fits i hph
    hexec.trans (awaitCompletion_ticked _ htxc htick htmr)
  timed_out := fun _ ⟨hph, _⟩ htxc htick htmr =>
    have ⟨_, hexec, _⟩ := exec_wait_fits i hph
    ⟨_, hexec.trans (awaitCompletion_timeOut _ htxc htick htmr)⟩
  waited := fun _ ⟨hph, _⟩ htxc htick =>
    have ⟨_, hexec, _⟩ := exec_wait_fits i hph
    hexec.trans (awaitCompletion_quiet _ htxc htick)
  delivered := fun _ hph hready => (exec_resp i hph).trans (congrArg _ (deliver_ready hready))

theorem getWord_toNat (f : Field) : (getWord f).toNat = 2 * (fieldSel f).toNat * 2 ^ 20 := by
  have hfield : (getWord f).toNat = (fieldSel f).toNat * 2 ^ 21 := by
    simp [getWord, assembleWord_toNat]
  rw [hfield, Nat.mul_comm 2, Nat.mul_assoc, ← Nat.pow_succ']

/-- The opcode of a get stands in the top four bits of its word, and nothing below (30_encoding.md R81). -/
theorem opcode_getWord {f : Field} {opcode : BitVec 4} (h : opcode.toNat = 2 * (fieldSel f).toNat) :
    (getWord f).extractLsb' 20 4 = opcode := by
  apply BitVec.eq_of_toNat_eq
  rw [BitVec.extractLsb'_toNat, getWord_toNat, ← h, Nat.shiftRight_eq_div_pow]
  omega

/-- The decoder of a get looks at the opcode alone (30_encoding.md R89). -/
theorem decode_eq_of_get_opcode {cw cw' : CommandWord} (h : cw.extractLsb' 20 4 = cw'.extractLsb' 20 4)
    (hw : wordIsSet cw = false) : decode cw' = decode cw := by
  rw [decode, decode, wordField_eq_of_opcode h, wordIsSet_eq_of_opcode h, hw]
  cases wordField cw <;> rfl

/-- A command that runs as a get of `f` meets the contract of a get from the register of `f`. -/
theorem getContract {i : Instr} (f : Field) {dec value : Byte → Payload} {opcode : BitVec 4}
    (hexec : ∀ s, exec i s = runGet f dec s) (hword : encode i = getWord f) (hget : isGet i = true)
    (hopcode : opcode.toNat = 2 * (fieldSel f).toNat) (hdec : ∀ b, dec b = value b) :
    GetContract i opcode (regAddr f) value where
  opcode_decodes := fun cw hcw => by
    have hsame : (getWord f).extractLsb' 20 4 = cw.extractLsb' 20 4 := (opcode_getWord hopcode).trans hcw.symm
    rw [decode_eq_of_get_opcode hsame (wordIsSet_assembleWord ..), ← hword, decode_encode_get hget]
  word := by rw [hword, getWord_toNat, hopcode]
  accepted := fun s hph => by
    rw [hexec, runGet, runCommand_idle _ _ _ hph, accept_valid]
    rfl
  answered := fun s b ⟨hph, htxq⟩ htxc hc => by
    have hfile : peripheralAfter s.txq .ok s.draw s.per = s.per :=
      peripheralAfter_ok_of_read (by rw [htxq]; rfl) s.draw s.per
    rw [hexec, runGet, runCommand_wait _ _ _ hph, awaitCompletion_completed _ htxc, complete_eq, hc, hfile, ← hdec]
    rfl
  outcomes := outcomeContract i _

/-- A command that runs as a set of `f` meets the contract of a set of the register of `f`, by its test and its byte. -/
theorem setContract {i : Instr} (f : Field) {ok : Bool} {byte data : Byte} {mask word : CommandWord} {valid : Prop}
    [Decidable valid] (hexec : ∀ s, exec i s = runSet f ok byte s) (hword : encode i = word)
    (hdecodes : ∀ cw, cw &&& mask = encode i → decode cw = i) (hok : ok = decide valid)
    (hdata : valid → byte = data) : SetContract i mask word (regAddr f) valid data where
  word_decodes := hword ▸ hdecodes
  word_encodes := hword
  refused := fun hinvalid s hph => by
    rw [hexec, runSet, runCommand_idle _ _ _ hph, hok.trans (decide_eq_false hinvalid), accept_invalid]
    rfl
  accepted := fun hvalid s hph => by
    rw [hexec, runSet, runCommand_idle _ _ _ hph, hok.trans (decide_eq_true hvalid), accept_valid, hdata hvalid]
    rfl
  stored := fun hvalid s ⟨hph, htxq⟩ htxc hst => by
    have hfile : peripheralAfter s.txq .ok s.draw s.per = memWrite s.per (regAddr f).toNat data := by
      rw [htxq]; exact peripheralAfter_ok_of_write rfl s.draw s.per
    rw [hexec, runSet, runCommand_wait _ _ _ hph, awaitCompletion_completed _ htxc, complete_eq, hst, hfile, ite_self]
    rfl
  outcomes := fun _ => outcomeContract i _

/-! ### The word of a set on one number (30_encoding.md R81, R89) -/

theorem setWord_ofNat {f : Field} {base v : Nat} (hv : v < 256) (hbase : (fieldSel f).toNat * 2 ^ 21 + 2 ^ 20 = base) :
    setWord f (BitVec.ofNat 8 v) = BitVec.ofNat 24 (base + v) :=
  have ⟨_, hword⟩ := setLine_assembled (if_pos (Nat.le_of_lt_succ hv)) hbase
  hword

/-- Outside control and hours, the decoder looks at the opcode and `ARG0` alone. -/
theorem decode_eq_of_opcode_and_arg0 {cw cw' : CommandWord} (h : cw &&& 0xF000FF = cw' &&& 0xF000FF)
    (hf : wordField cw ≠ .control ∧ wordField cw ≠ .hours) : decode cw' = decode cw := by
  have hopcode := extractLsb'_eq_of_and_eq (k := 20) (n := 4) h rfl
  rw [decode, decode, wordField_eq_of_opcode hopcode, wordIsSet_eq_of_opcode hopcode, wordArg0_eq_of_and_eq h rfl]
  obtain ⟨hcontrol, hhours⟩ := hf
  cases hfield : wordField cw with
  | control => exact absurd hfield hcontrol
  | hours => exact absurd hfield hhours
  | seconds | minutes | day | weekday | month | year => cases wordIsSet cw <;> rfl

theorem decode_of_numberSet {i : Instr} (f : Field) {v : Nat} {cw : CommandWord}
    (hword : encode i = setWord f (BitVec.ofNat 8 v)) (hwf : i.wellFormed = true) (hf : f ≠ .control ∧ f ≠ .hours)
    (h : cw &&& 0xF000FF = encode i) : decode cw = i := by
  have hfield : wordField (encode i) = f := by rw [hword, setWord, wordField_assembleWord]
  have hmasked : encode i &&& 0xF000FF = cw &&& 0xF000FF := by rw [← h, BitVec.and_assoc, BitVec.and_self]
  rw [decode_eq_of_opcode_and_arg0 hmasked (hfield.symm ▸ hf), decode_encode hwf]

/-! ### The five scalar fields (O16 to O19, O22, O23, O26 to O29) -/

/-- Settles O16. -/
theorem getSecondsReadsTwoDigits : Obligations.GetSecondsReadsTwoDigits :=
  getContract .seconds (fun _ => rfl) rfl rfl rfl fun b => congrArg Payload.value (bcdValue_eq_twoDigits b 3)

/-- Settles O17. -/
theorem setSecondsWritesTwoDigits : Obligations.SetSecondsWritesTwoDigits := fun v hv =>
  setContract .seconds (fun _ => rfl) (setWord_ofNat hv rfl)
    (fun _ => decode_of_numberSet .seconds rfl (decide_eq_true hv) (by decide))
    (inRange_zero 59 v) fun _ => bcdByte_eq_digitByte (w := 3) (by omega)

/-- Settles O18. -/
theorem getMinutesReadsTwoDigits : Obligations.GetMinutesReadsTwoDigits :=
  getContract .minutes (fun _ => rfl) rfl rfl rfl fun b => congrArg Payload.value (bcdValue_eq_twoDigits b 3)

/-- Settles O19. -/
theorem setMinutesWritesTwoDigits : Obligations.SetMinutesWritesTwoDigits := fun v hv =>
  setContract .minutes (fun _ => rfl) (setWord_ofNat hv rfl)
    (fun _ => decode_of_numberSet .minutes rfl (decide_eq_true hv) (by decide))
    (inRange_zero 59 v) fun _ => bcdByte_eq_digitByte (w := 3) (by omega)

/-- Settles O22. -/
theorem getDayReadsTwoDigits : Obligations.GetDayReadsTwoDigits :=
  getContract .day (fun _ => rfl) rfl rfl rfl fun b => congrArg Payload.value (bcdValue_eq_twoDigits b 2)

/-- Settles O23. -/
theorem setDayWritesTwoDigits : Obligations.SetDayWritesTwoDigits := fun v hv =>
  setContract .day (fun _ => rfl) (setWord_ofNat hv rfl)
    (fun _ => decode_of_numberSet .day rfl (decide_eq_true hv) (by decide))
    (inRange_eq_decide 1 31 v) fun _ => bcdByte_eq_digitByte (w := 2) (by omega)

/-- Settles O26. -/
theorem getMonthReadsTwoDigits : Obligations.GetMonthReadsTwoDigits :=
  getContract .month (fun _ => rfl) rfl rfl rfl fun b => congrArg Payload.value (bcdValue_eq_twoDigits b 1)

/-- Settles O27. -/
theorem setMonthWritesTwoDigits : Obligations.SetMonthWritesTwoDigits := fun v hv =>
  setContract .month (fun _ => rfl) (setWord_ofNat hv rfl)
    (fun _ => decode_of_numberSet .month rfl (decide_eq_true hv) (by decide))
    (inRange_eq_decide 1 12 v) fun _ => bcdByte_eq_digitByte (w := 1) (by omega)

/-- Settles O28. -/
theorem getYearReadsTwoDigits : Obligations.GetYearReadsTwoDigits :=
  getContract .year (fun _ => rfl) rfl rfl rfl fun b => congrArg Payload.value (bcdValue_eq_twoDigits b 4)

/-- Settles O29. -/
theorem setYearWritesTwoDigits : Obligations.SetYearWritesTwoDigits := fun v hv =>
  setContract .year (fun _ => rfl) (setWord_ofNat hv rfl)
    (fun _ => decode_of_numberSet .year rfl (decide_eq_true hv) (by decide))
    (inRange_eq_decide 1 99 v) fun _ => bcdByte_eq_digitByte (w := 4) (by omega)

/-! ### The other codecs decode what they encode (42_bitfield_codec.md R172, R175, R177) -/

theorem ctlDecode_ctlEncode (c : ControlState) : ctlDecode (ctlEncode c) = c := by simp [ctlDecode, ctlEncode]

theorem wdDecode_wdEncode {v : Nat} (h : v ≤ 6) : wdDecode (wdEncode v) = BitVec.ofNat 8 v := by
  interval_cases v <;> rfl

/-- A 24-hour byte is read back in the 24-hour reading. -/
theorem hoursDecode_hoursEncode_mode24 (ampm : Bool) (h12 : Nat) {h : Nat} (hh : h ≤ 23) :
    ∃ a x, hoursDecode (hoursEncode .mode24 ampm h12 h) = .hours a x (BitVec.ofNat 8 h) :=
  ⟨_, _, congrArg (Payload.hours _ _) (bcdValue_bcdByte (w := 2) (by omega) (by decide))⟩

/-- A 12-hour byte is the AM/PM bit above the two digits. -/
theorem hoursEncode_mode12_toNat (ampm : Bool) (h24 : Nat) {h : Nat} (hh : h ≤ 12) :
    (hoursEncode .mode12 ampm h h24).toNat = 32 * ampm.toNat + (16 * (h / 10) + h % 10) := by
  have hflag : ampm.toNat ≤ 1 := Bool.toNat_le ampm
  have hdigits : bcdEncode h 1 = 16 * (h / 10) + h % 10 := bcdEncode_of_tens_lt (by omega)
  have hunion : ampm.toNat <<< 5 ||| bcdEncode h 1 = ampm.toNat <<< 5 + bcdEncode h 1 :=
    (Nat.shiftLeft_add_eq_or_of_lt (bcdEncode_lt h 1) _).symm
  rw [hoursEncode, BitVec.toNat_ofNat, hours12Width, hunion, hdigits, Nat.shiftLeft_eq]
  omega

/-- A 12-hour byte is read back in the 12-hour reading, with its AM/PM bit. -/
theorem hoursDecode_hoursEncode_mode12 (ampm : Bool) (h24 : Nat) {h : Nat} (hh : h ≤ 12) :
    ∃ x, hoursDecode (hoursEncode .mode12 ampm h h24) = .hours ampm (BitVec.ofNat 8 h) x := by
  have hbyte := hoursEncode_mode12_toNat ampm h24 hh
  have hflag : (hoursEncode .mode12 ampm h h24).getLsbD 5 = ampm := by
    have hdigits : (16 * (h / 10) + h % 10) / 32 = 0 := by omega
    rw [BitVec.getLsbD, hbyte, Nat.testBit_eq_decide_div_mod_eq, Nat.mul_add_div (by decide) ampm.toNat, hdigits]
    cases ampm <;> rfl
  have hhour : bcdDecode (hoursEncode .mode12 ampm h h24) hours12Width = h := by
    rw [bcdDecode_eq, hbyte, hours12Width]
    omega
  exact ⟨_, by rw [hoursDecode, hflag, bcdValue, hhour]⟩

/-! ### A set read back through the ideal register file (O57) -/

/-- A sample with a command alone issues the command's transaction. -/
theorem step_issues {s : State} {cw : CommandWord} {q : Txq} {payload : Byte → Option Payload}
    (hexec : ∀ s, exec (decode cw) s = runCommand true q payload s) (hph : s.ph = .idle)
    (hinp : s.inp = commandSample cw) : ∃ t, step s = .next t ∧ t.ph = .wait ∧ t.cmd = cw ∧ t.txq = q := by
  have hcmd : s.inp.cmd = cw := by rw [hinp]; rfl
  rw [step_idle (by rw [hinp]; rfl) hph (by rw [hinp]; rfl), hcmd, hexec, runCommand_idle _ _ _ hph]
  exact ⟨_, rfl, rfl, hcmd, rfl⟩

/-- A sample with a success alone answers the command in `CMD` with the payload for the byte read. -/
theorem step_answers {s : State} {cw : CommandWord} {q : Txq} {payload : Byte → Option Payload} {c : Completion}
    (hexec : ∀ s, exec (decode cw) s = runCommand true q payload s) (hph : s.ph = .wait) (hcmd : s.cmd = cw)
    (hinp : s.inp = completionSample c) (hok : c.status = .ok) :
    ∃ t, step s = .next t ∧ t.ph = .resp ∧ t.rsp = ⟨.success, payload c.rx⟩ := by
  have hcompletion : completion s = c := by rw [completion, hinp]; exact unpackCompletion_packCompletion c
  rw [step_wait (by rw [hinp]; rfl) hph, hcmd, hexec, runCommand_wait _ _ _ hph,
    awaitCompletion_completed _ (by rw [hinp]; rfl), complete_eq, hcompletion, hok]
  exact ⟨_, rfl, rfl, rfl⟩

theorem doubleAnswer_registerFile_status (q : Txq) (file : RegFile) :
    (doubleAnswer .registerFile q file).1.status = .ok := by
  cases hk : q.kind <;> simp [doubleAnswer, hk]

/-- RF reads at an address the byte written there. -/
theorem registerFile_reads_written (addr byte : Byte) (file : RegFile) :
    (doubleAnswer .registerFile (readTxq addr) (doubleAnswer .registerFile (writeTxq addr byte) file).2).1.rx = byte :=
  memRead_memWrite_self file addr.toNat byte

/-- A command that issues the transaction `q` ends with `Success` and the payload for the byte that RF answers to
`q`. -/
theorem benchCommand_registerFile {cw : CommandWord} {q : Txq} {payload : Byte → Option Payload} {b : Bench}
    (hexec : ∀ s, exec (decode cw) s = runCommand true q payload s) (hph : b.block.ph = .idle) :
    ∃ t, benchCommand .registerFile cw b = .next ⟨t, (doubleAnswer .registerFile q b.file).2⟩ ∧ t.ph = .resp ∧
      t.rsp = ⟨.success, payload (doubleAnswer .registerFile q b.file).1.rx⟩ := by
  obtain ⟨t, ht, htph, htcmd, rfl⟩ := step_issues (s := { b.block with inp := commandSample cw }) hexec hph rfl
  have hok := doubleAnswer_registerFile_status t.txq b.file
  obtain ⟨u, hu, hresp⟩ := step_answers
    (s := { t with inp := completionSample (doubleAnswer .registerFile t.txq b.file).1 }) hexec htph htcmd rfl hok
  have hissue : stepWith (commandSample cw) b.block = .next t := ht
  have hanswer : stepWith (completionSample (doubleAnswer .registerFile t.txq b.file).1) t = .next u := hu
  have hdouble : doubleCompletes .registerFile ⟨t, b.file⟩ = .next ⟨u, (doubleAnswer .registerFile t.txq b.file).2⟩ :=
    (if_pos htph).trans (congrArg (afterNext · _) hanswer)
  exact ⟨u, (congrArg (afterNext · _) hissue).trans hdouble, hresp⟩

theorem benchTake_next {b : Bench} (h : b.block.ph = .resp) :
    ∃ t, benchTake b = .next ⟨t, b.file⟩ ∧ t.ph = .idle := by
  obtain ⟨t, ht, hph, -, -⟩ :=
    step_takeSample (s := { b.block with inp := { quietInputs with rspReady := true } }) h rfl
  exact ⟨t, congrArg (afterNext · _) ht, hph⟩

/-- A word that runs as a passing set of `f` stores its byte, and a get of `f` then decodes that byte. -/
theorem readsBack {i i' j : Instr} (f : Field) {valid : Bool} {byte : Byte} {dec : Byte → Payload} {ok : Payload → Prop}
    (hi : decode (encode i) = i') (hset : ∀ s, exec i' s = runSet f valid byte s) (hvalid : valid = true)
    (hj : isGet j = true) (hget : ∀ s, exec j s = runGet f dec s) (hok : ok (dec byte)) : ReadsBack i j ok := by
  intro b hb
  have hset' : ∀ s, exec (decode (encode i)) s = runCommand true (writeTxq (regAddr f) byte) (fun _ => none) s :=
    fun s => by rw [hi, hset, hvalid, runSet]
  have hget' : ∀ s, exec (decode (encode j)) s = runCommand true (readTxq (regAddr f)) (fun x => some (dec x)) s :=
    fun s => by rw [decode_encode_get hj, hget, runGet]
  obtain ⟨t, ht, htph, htrsp⟩ := benchCommand_registerFile hset' hb
  obtain ⟨u, hu, huph⟩ := benchTake_next (b := ⟨t, _⟩) htph
  obtain ⟨v, hv, hvph, hvrsp⟩ := benchCommand_registerFile (b := ⟨u, _⟩) hget' huph
  rw [registerFile_reads_written] at hvrsp
  exact ⟨_, _, _, _, ht, htph, htrsp, hu, hv, hvph, hvrsp, hok⟩

/-- The port keeps the low eight bits of each hour (30_encoding.md R82). -/
theorem decode_encode_setHours (mode : HourMode) (ampm : Bool) (h12 h24 : Nat) :
    decode (encode (.setHours mode ampm h12 h24)) = .setHours mode ampm (h12 % 256) (h24 % 256) := by
  cases mode <;> simp [decode, encode]

/-- Only the hour that the mode selects has to be valid; the other may be any number. -/
theorem readsBack_hours24 (ampm : Bool) (h12 : Nat) {h : Nat} (hh : h ≤ 23) :
    ReadsBack (.setHours .mode24 ampm h12 h) .getHours (fun p => ∃ a x, p = .hours a x (BitVec.ofNat 8 h)) := by
  have hword := decode_encode_setHours .mode24 ampm h12 h
  rw [Nat.mod_eq_of_lt (a := h) (by omega)] at hword
  exact readsBack .hours hword (fun _ => rfl) ((inRange_zero 23 h).trans (decide_eq_true hh)) rfl (fun _ => rfl)
    (hoursDecode_hoursEncode_mode24 ampm (h12 % 256) hh)

theorem readsBack_hours12 (ampm : Bool) (h24 : Nat) {h : Nat} (h1 : 1 ≤ h) (hh : h ≤ 12) :
    ReadsBack (.setHours .mode12 ampm h h24) .getHours (fun p => ∃ x, p = .hours ampm (BitVec.ofNat 8 h) x) := by
  have hword := decode_encode_setHours .mode12 ampm h h24
  rw [Nat.mod_eq_of_lt (a := h) (by omega)] at hword
  exact readsBack .hours hword (fun _ => rfl) ((inRange_eq_decide 1 12 h).trans (decide_eq_true ⟨h1, hh⟩)) rfl
    (fun _ => rfl) (hoursDecode_hoursEncode_mode12 ampm (h24 % 256) hh)

/-- Settles O57: what the set of a field encodes, the get of the field decodes. -/
theorem setThenGetThroughTheRegisterFile : Obligations.SetThenGetThroughTheRegisterFile := by
  refine ⟨fun cs => ?control, fun v hv => ?seconds, fun v hv => ?minutes,
    fun ampm h12 _ hh => readsBack_hours24 ampm h12 hh, fun ampm h24 _ h1 hh => readsBack_hours12 ampm h24 h1 hh,
    fun v h1 hv => ?day, fun v hv => ?weekday, fun v h1 hv => ?month, fun v h1 hv => ?year⟩
  case control =>
    exact readsBack .control (decode_encode rfl) (fun _ => rfl) rfl rfl (fun _ => rfl)
      (congrArg Payload.flags (ctlDecode_ctlEncode cs))
  case seconds =>
    exact readsBack .seconds (decode_encode (fitsOperand_of_le (by omega))) (fun _ => rfl)
      ((inRange_zero 59 v).trans (decide_eq_true hv)) rfl (fun _ => rfl)
      (congrArg Payload.value (bcdValue_bcdByte (w := 3) (by omega) (by decide)))
  case minutes =>
    exact readsBack .minutes (decode_encode (fitsOperand_of_le (by omega))) (fun _ => rfl)
      ((inRange_zero 59 v).trans (decide_eq_true hv)) rfl (fun _ => rfl)
      (congrArg Payload.value (bcdValue_bcdByte (w := 3) (by omega) (by decide)))
  case day =>
    exact readsBack .day (decode_encode (fitsOperand_of_le (by omega))) (fun _ => rfl)
      ((inRange_eq_decide 1 31 v).trans (decide_eq_true ⟨h1, hv⟩)) rfl (fun _ => rfl)
      (congrArg Payload.value (bcdValue_bcdByte (w := 2) (by omega) (by decide)))
  case weekday =>
    exact readsBack .weekday (decode_encode (fitsOperand_of_le (by omega))) (fun _ => rfl)
      ((inRange_zero 6 v).trans (decide_eq_true hv)) rfl (fun _ => rfl)
      (congrArg Payload.value (wdDecode_wdEncode hv))
  case month =>
    exact readsBack .month (decode_encode (fitsOperand_of_le (by omega))) (fun _ => rfl)
      ((inRange_eq_decide 1 12 v).trans (decide_eq_true ⟨h1, hv⟩)) rfl (fun _ => rfl)
      (congrArg Payload.value (bcdValue_bcdByte (w := 1) (by omega) (by decide)))
  case year =>
    exact readsBack .year (decode_encode (fitsOperand_of_le (by omega))) (fun _ => rfl)
      ((inRange_eq_decide 1 99 v).trans (decide_eq_true ⟨h1, hv⟩)) rfl (fun _ => rfl)
      (congrArg Payload.value (bcdValue_bcdByte (w := 4) (by omega) (by decide)))

end Sys2Proof.Machine

/-! PROOFS. The control, hours and weekday codecs (42_bitfield_codec.md): each as a sum of its fields, its laws, and the
contracts of the six commands that use it. -/

namespace Sys2Proof.Machine

/-! ### The control codec (R170 to R172; O50) -/

/-- `cap_sel` stands at bit 7, the other six flags at bits 5:0, and no flag at bit 6. -/
theorem ctlEncode_toNat (cap stop sr mode sie aie cie : Bool) :
    (ctlEncode ⟨cap, stop, sr, mode, sie, aie, cie⟩).toNat =
      128 * cap.toNat + 32 * stop.toNat + 16 * sr.toNat + 8 * mode.toNat + 4 * sie.toNat + 2 * aie.toNat + cie.toNat := by
  have hlow := ((LowBits.putBit_zero (n := 8) cie (by decide)).putBit_or aie (by decide)).putBit_or sie (by decide)
  have hsix := ((hlow.putBit_or mode (by decide)).putBit_or sr (by decide)).putBit_or stop (by decide)
  have hbyte := (hsix.mono (k' := 7) (by decide)).putBit_or cap (by decide)
  simp only [ctlEncode, BitVec.or_assoc]
  rw [hbyte.toNat_eq]
  omega

/-- A get followed by a set keeps every bit but bit 6, which the decoder does not read and the encoder leaves 0. -/
theorem ctlEncode_ctlDecode (b : Byte) : ctlEncode (ctlDecode b) = b &&& 0xBF := by
  refine BitVec.eq_of_getLsbD_eq fun k hk => ?_
  interval_cases k <;> simp [ctlEncode, ctlDecode]

/-- Settles O50. -/
theorem controlCodecLaws : Obligations.ControlCodecLaws := ⟨ctlEncode_toNat, ctlDecode_ctlEncode, ctlEncode_ctlDecode⟩

/-! ### The weekday and hours codecs (R174 to R177; O51) -/

theorem wdEncode_eq_mod (v : Nat) : wdEncode v = BitVec.ofNat 8 (v % 8) :=
  congrArg (BitVec.ofNat 8) (Nat.and_two_pow_sub_one_eq_mod v 3)

theorem wdEncode_of_le {v : Nat} (h : v ≤ 6) : wdEncode v = BitVec.ofNat 8 v := by
  rw [wdEncode_eq_mod, Nat.mod_eq_of_lt (by omega)]

theorem wdDecode_eq_extract (b : Byte) : wdDecode b = (b.extractLsb' 0 3).zeroExtend 8 := by
  have hmod : b.toNat &&& 7 = b.toNat % 8 := Nat.and_two_pow_sub_one_eq_mod _ 3
  apply BitVec.eq_of_toNat_eq
  rw [wdDecode, BitVec.toNat_and, BitVec.zeroExtend, BitVec.toNat_setWidth, BitVec.extractLsb'_toNat,
    Nat.shiftRight_zero]
  exact hmod.trans (by omega)

theorem hoursDecode_eq_twoDigits (b : Byte) :
    hoursDecode b = .hours (b.getLsbD 5) (twoDigits 1 b) (twoDigits 2 b) :=
  congrArg₂ (Payload.hours _) (bcdValue_eq_twoDigits b 1) (bcdValue_eq_twoDigits b 2)

/-- The AM/PM bit stands above the two digits of the hour, so their union is a sum. -/
theorem hoursEncode_mode12_eq_add (ampm : Bool) (h24 : Nat) {h : Nat} (hh : h ≤ 12) :
    hoursEncode .mode12 ampm h h24 = BitVec.ofNat 8 (32 * ampm.toNat) + digitByte h := by
  rw [digitByte, ← BitVec.ofNat_add, ← hoursEncode_mode12_toNat ampm h24 hh, BitVec.ofNat_toNat, BitVec.setWidth_eq]

/-- Settles O51. -/
theorem hoursAndWeekdayCodecLaws : Obligations.HoursAndWeekdayCodecLaws :=
  ⟨fun ampm h12 _ hh => hoursDecode_hoursEncode_mode24 ampm h12 hh,
    fun ampm h24 _ _ hh => hoursDecode_hoursEncode_mode12 ampm h24 hh,
    fun _ hv => ⟨wdEncode_of_le hv, wdDecode_wdEncode hv⟩⟩

/-! ### The words of SET_CONTROL and SET_HOURS (30_encoding.md R81, R89)

Each is the sum of its fields, and every word that agrees with it under its mask decodes to the same command. -/

theorem encode_setControl (cs : ControlState) :
    encode (.setControl cs) = BitVec.ofNat 24 (0x100000 + (flagsToBits cs).toNat) :=
  setWord_of_assembleSum (if_pos (flagsToBits cs).isLt.le) rfl fun _ => BitVec.toNat_setWidth_of_le (by decide)

theorem encode_setHours (mode : HourMode) (ampm : Bool) {h12 h24 : Nat} (hh12 : h12 < 256) (hh24 : h24 < 256) :
    encode (.setHours mode ampm h12 h24) =
      BitVec.ofNat 24
        (0x700000 + 0x20000 * (decide (mode = .mode12)).toNat + 0x10000 * ampm.toNat + 0x100 * h12 + h24) := by
  have hsel : (fieldSel .hours).toNat = 3 := rfl
  apply BitVec.eq_of_toNat_eq
  rw [encode, assembleWord_toNat, hsel, Bool.toNat_true, BitVec.toNat_ofNat, BitVec.toNat_ofNat, BitVec.toNat_ofNat]
  have hampm := Bool.toNat_le ampm
  have hmode := Bool.toNat_le (decide (mode = .mode12))
  omega

theorem and_mask_eq_of_and_eq {cw m w : CommandWord} (h : cw &&& m = w) : w &&& m = cw &&& m := by
  rw [← h, BitVec.and_assoc, BitVec.and_self]

theorem decode_of_setControl {cs : ControlState} {cw : CommandWord} (h : cw &&& 0xF0007F = encode (.setControl cs)) :
    decode cw = .setControl cs := by
  have hsame := and_mask_eq_of_and_eq h
  have hopcode := extractLsb'_eq_of_and_eq (k := 20) (n := 4) hsame rfl
  have hflags : wordFlags cw = wordFlags (encode (.setControl cs)) :=
    congrArg flagsOfBits (extractLsb'_eq_of_and_eq hsame rfl).symm
  have hdecode : decode cw = decode (encode (.setControl cs)) := by
    rw [decode, decode, wordField_eq_of_opcode hopcode, wordIsSet_eq_of_opcode hopcode, hflags, encode, setWord,
      wordField_assembleWord, wordIsSet_assembleWord]
  exact hdecode.trans (decode_encode rfl)

theorem decode_of_setHours {mode : HourMode} {ampm : Bool} {h12 h24 : Nat} {cw : CommandWord} (hh12 : h12 < 256)
    (hh24 : h24 < 256) (h : cw &&& 0xF3FFFF = encode (.setHours mode ampm h12 h24)) :
    decode cw = .setHours mode ampm h12 h24 := by
  have hsame := and_mask_eq_of_and_eq h
  have hopcode := extractLsb'_eq_of_and_eq (k := 20) (n := 4) hsame rfl
  have hampm : wordAmPm cw = wordAmPm (encode (.setHours mode ampm h12 h24)) := (getLsbD_eq_of_and_eq hsame rfl).symm
  have harg1 : wordArg1 cw = wordArg1 (encode (.setHours mode ampm h12 h24)) :=
    congrArg BitVec.toNat (extractLsb'_eq_of_and_eq hsame rfl).symm
  have hdecode : decode cw = decode (encode (.setHours mode ampm h12 h24)) := by
    rw [decode, decode, wordField_eq_of_opcode hopcode, wordIsSet_eq_of_opcode hopcode, wordMode_eq_of_and_eq hsame rfl,
      hampm, harg1, wordArg0_eq_of_and_eq hsame rfl, encode, wordField_assembleWord, wordIsSet_assembleWord]
  exact hdecode.trans (decode_encode (Bool.and_eq_true_iff.2 ⟨decide_eq_true hh12, decide_eq_true hh24⟩))

/-! ### The six commands (R180 to R185; O14, O15, O20, O21, O24, O25) -/

/-- Settles O14: the decoder reads exactly those seven bits. -/
theorem getControlReadsTheSevenFlags : Obligations.GetControlReadsTheSevenFlags :=
  getContract .control (fun _ => rfl) rfl rfl rfl fun _ => rfl

/-- Settles O15: the set has no validator, so it never refuses. -/
theorem setControlWritesTheSevenFlags : Obligations.SetControlWritesTheSevenFlags :=
  fun cap stop sr mode sie aie cie =>
  setContract .control (fun _ => rfl) (flagsToBits_toNat cap stop sr mode sie aie cie ▸ encode_setControl _)
    (fun _ => decode_of_setControl) rfl fun _ => by rw [← ctlEncode_toNat, BitVec.ofNat_toNat, BitVec.setWidth_eq]

/-- Settles O20. -/
theorem getHoursReadsBothRepresentations : Obligations.GetHoursReadsBothRepresentations :=
  getContract .hours (fun _ => rfl) rfl rfl rfl hoursDecode_eq_twoDigits

/-- Settles O21: the validator and the encoder follow the same mode. -/
theorem setHoursWritesTheSelectedHour : Obligations.SetHoursWritesTheSelectedHour := fun ampm h12 hh12 h24 hh24 => by
  constructor
  case left =>
    exact setContract .hours (fun _ => rfl) (encode_setHours .mode24 ampm hh12 hh24)
      (fun _ => decode_of_setHours hh12 hh24) (inRange_zero 23 h24) fun _ => bcdByte_eq_digitByte (w := 2) (by omega)
  case right =>
    exact setContract .hours (fun _ => rfl) (encode_setHours .mode12 ampm hh12 hh24)
      (fun _ => decode_of_setHours hh12 hh24) (inRange_eq_decide 1 12 h12)
      fun ⟨_, hle⟩ => hoursEncode_mode12_eq_add ampm h24 hle

/-- Settles O24. -/
theorem getWeekdayReadsThreeBits : Obligations.GetWeekdayReadsThreeBits :=
  getContract .weekday (fun _ => rfl) rfl rfl rfl fun b => congrArg Payload.value (wdDecode_eq_extract b)

/-- Settles O25. -/
theorem setWeekdayWritesThreeBits : Obligations.SetWeekdayWritesThreeBits := fun v hv =>
  setContract .weekday (fun _ => rfl) (setWord_ofNat hv rfl)
    (fun _ => decode_of_numberSet .weekday rfl (decide_eq_true hv) (by decide))
    (inRange_zero 6 v) fun _ => wdEncode_eq_mod v

end Sys2Proof.Machine

/-! PROOFS. The results of a command (60_exceptions.md): which commands can be refused at once, and what a command in flight
can end with. -/

namespace Sys2Proof.Machine

/-! ### The end of a command (R201 to R204; O47) -/

/-- A get and SET_CONTROL have no range to miss, so their acceptance always issues (40_transaction_fsm.md R111, R120). -/
theorem exec_idle_waits_of_no_range {i : Instr} (hi : isGet i = true ∨ ∃ cs, i = .setControl cs) {s t : State}
    (hs : s.ph = .idle) (ht : exec i s = .next t) : t.ph = .wait := by
  have hrun : ∃ q payload, exec i s = runCommand true q payload s := by
    rcases hi with hget | ⟨cs, rfl⟩
    · rcases exec_shape i with ⟨-, _, _, hexec⟩ | ⟨hset, -⟩
      · exact ⟨_, _, hexec s⟩
      · cases hget.symm.trans hset
    · exact ⟨_, _, rfl⟩
  obtain ⟨q, payload, hexec⟩ := hrun
  rw [hexec, runCommand_idle _ _ _ hs, accept_valid] at ht
  obtain rfl := Host.Outcome.next.inj ht
  exact issue_ph _ _

/-- An acceptance ends a command only by refusing it. -/
theorem rsp_of_exec_idle_ends {i : Instr} {s t : State} (hs : s.ph = .idle) (ht : exec i s = .next t)
    (hresp : t.ph = .resp) : t.rsp = ⟨.invalidParam, none⟩ := by
  obtain ⟨valid, q, hexec⟩ := exec_idle i hs
  obtain rfl := Host.Outcome.next.inj (ht.symm.trans hexec)
  cases valid with
  | true => cases hresp
  | false => rfl

/-- Each result is the result of a completion status (60_exceptions.md R201 to R203). -/
theorem classify_surjective : Function.Surjective classify
  | .success => ⟨.ok, rfl⟩
  | .commFailure => ⟨.fail, rfl⟩
  | .invalidParam => ⟨.invalidArg, rfl⟩

/-- A completion ends every command in flight, with the result of its status. -/
theorem exec_completionSample (i : Instr) {s : State} (hs : s.ph = .wait) (c : Completion) :
    ∃ t, exec i { s with inp := completionSample c } = .next t ∧ t.ph = .resp ∧ t.rsp.result = classify c.status := by
  obtain ⟨payload, hexec, -⟩ := exec_wait_fits i (s := { s with inp := completionSample c }) hs
  have hc : completion { s with inp := completionSample c } = c := unpackCompletion_packCompletion c
  refine ⟨_, hexec.trans (awaitCompletion_completed payload rfl), complete_ph _ _, ?_⟩
  rw [complete_eq, respond_rsp, hc]

/-- Settles O47: only a set with a range can be refused, and in flight the completion's status chooses the result. -/
theorem resultsEachCommandCanEndWith : Obligations.ResultsEachCommandCanEndWith := by
  constructor
  case left =>
    intro i s t hs ht hresp
    refine ⟨rsp_of_exec_idle_ends hs ht hresp, ?_⟩
    have hrange : ¬ (isGet i = true ∨ ∃ cs, i = .setControl cs) := fun hi => by
      cases hresp.symm.trans (exec_idle_waits_of_no_range hi hs ht)
    cases i with
    | getControl | getSeconds | getMinutes | getHours | getDay | getWeekday | getMonth | getYear =>
      exact absurd (.inl rfl) hrange
    | setControl cs => exact absurd (.inr ⟨cs, rfl⟩) hrange
    | setSeconds | setMinutes | setHours | setDay | setWeekday | setMonth | setYear => simp
  case right =>
    intro i s r hs
    obtain ⟨st, rfl⟩ := classify_surjective r
    exact ⟨completionSample ⟨st, 0⟩, exec_completionSample i hs ⟨st, 0⟩⟩

end Sys2Proof.Machine

/-! PROOFS. The reset step (70_reset_and_hazards.md R230, R231). -/

namespace Sys2Proof.Machine

/-- Settles O9: `rst` selects the reset step whatever the phase, and that step fixes every field the statement names; the
own changes land on the file it leaves. -/
theorem resetStepAbandonsTheCommand : Obligations.ResetStepAbandonsTheCommand := fun s hrst =>
  ⟨advance (resetBlock s), step_reset hrst, rfl, rfl, rfl, rfl, rfl, decide_eq_true_iff, rfl⟩

end Sys2Proof.Machine
